-- ==== Sys2Proof/Word.lean ====
section
/-! DEFINITION. The widths of the block's values: `u8`, `u16` and `u32` of 00_scope.md R10. Every value is unsigned. -/

namespace Sys2Proof

/-- A byte, the spec's `u8` (00_scope.md R10). -/
abbrev Byte := BitVec 8

/-- A 16-bit value, the spec's `u16`: a header field, a checksum, an immediate. -/
abbrev Half := BitVec 16

/-- A 32-bit value, the spec's `u32`: a register, a command word (00_scope.md R8, `REG_WIDTH`). -/
abbrev Word := BitVec 32

end Sys2Proof
end

