-- ==== Sys2Proof/Config.lean ====
section
/-! DEFINITION. The parameters of 00_scope.md R8 that the spec fixes, and the one free value of the model. The open
parameters `UDPCK_BASE` and `N_INSTANCES` are arguments of Machine/Platform.lean (log 11); `CMD_LATENCY` is plain data of
State (log 5). -/

namespace Sys2Proof.Config

/-- `BUF_BYTES`: the size of PBUF (00_scope.md R8, 20_memory.md R60). -/
def bufBytes : Nat := 65536

/-- `ID_VALUE`: what register ID always reads (10_state.md R40). -/
def idValue : Word := 0x55445031#32

/-- The largest UDP length (00_scope.md R8). -/
def maxUdpLength : Nat := 65535

/-- The size of the UDP header, and the PBUF offset of the payload (00_scope.md R8, 20_memory.md R61). -/
def headerBytes : Nat := 8

/-- The size of the pseudo-header (00_scope.md R8, 42_pseudo_header.md R130). -/
def pseudoHeaderBytes : Nat := 12

/-- The UDP protocol number (00_scope.md R8, 42_pseudo_header.md R131). -/
def udpProtocol : Byte := 0x11#8

/-- The size of a block's window, and the alignment of `UDPCK_BASE` (20_memory.md R63). -/
def windowBytes : Nat := 0x20000

/-- Where the register window ends and the reserved range begins (20_memory.md R63). -/
def registerWindowEnd : Nat := 0x40

/-- The window offset of PBUF byte 0 (20_memory.md R63). -/
def pbufWindow : Nat := 0x10000

/-- FREE VALUE (log 1): the value of PBUF byte `offset` of block number `block` while nothing has written it since that block's
reset number `epoch`. 70_reset_and_hazards.md R231: "every PBUF byte holds an unknown value"; 93_implementation_defined.md
U1: any value per byte. It has no body, so no proof can know it. How the unknown bytes of two blocks relate is the model's
choice (DESIGN CHOICE, logs 1 and 11): blocks of different numbers share none; two block states of one number and one reset
number share them all. -/
opaque unknownByte (block epoch offset : Nat) : Byte

end Sys2Proof.Config
end

