-- ==== Sys2Proof/Syntax.lean ====
section
/-! DEFINITION. The commands of the opcode map (30_encoding.md R93), their mnemonics, and the assembler line of R98. -/

namespace Sys2Proof

/-- The block's commands: one constructor per row of the opcode map (30_encoding.md R93). The two immediates are the
unsigned 16-bit `IMM16` (R91); every other operand stands in the latched operand registers (R92). -/
inductive Instr where
  /-- HDR_CONSTRUCT, 41_header.md R112 -/
  | hdrConstruct
  /-- HDR_SET_CSUM value, 41_header.md R114 -/
  | hdrSetCsum (value : Half)
  /-- HDR_ENCODE, 41_header.md R116 -/
  | hdrEncode
  /-- HDR_DECODE, 41_header.md R119 -/
  | hdrDecode
  /-- PSH_ENCODE udp_length, 42_pseudo_header.md R133 -/
  | pshEncode (udpLength : Half)
  /-- CSUM_BUF, 43_checksum.md R150 -/
  | csumBuf
  /-- PKT_CONSTRUCT, 44_packet.md R161 -/
  | pktConstruct
  /-- PKT_ENCODE, 44_packet.md R166 -/
  | pktEncode
  /-- PKT_DECODE, 44_packet.md R170 -/
  | pktDecode
  /-- PKT_CSUM, 44_packet.md R180 -/
  | pktCsum
deriving DecidableEq, Repr

/-- The mnemonics of the opcode map (30_encoding.md R93), in its order. -/
inductive Mnemonic where
  | HDR_CONSTRUCT | HDR_SET_CSUM | HDR_ENCODE | HDR_DECODE | PSH_ENCODE
  | CSUM_BUF | PKT_CONSTRUCT | PKT_ENCODE | PKT_DECODE | PKT_CSUM
deriving DecidableEq, Repr

/-- The mnemonic of a command. -/
def Instr.mnemonic : Instr → Mnemonic
  | .hdrConstruct => .HDR_CONSTRUCT
  | .hdrSetCsum _ => .HDR_SET_CSUM
  | .hdrEncode => .HDR_ENCODE
  | .hdrDecode => .HDR_DECODE
  | .pshEncode _ => .PSH_ENCODE
  | .csumBuf => .CSUM_BUF
  | .pktConstruct => .PKT_CONSTRUCT
  | .pktEncode => .PKT_ENCODE
  | .pktDecode => .PKT_DECODE
  | .pktCsum => .PKT_CSUM

/-- The immediate of a command; 0 for a command without one (30_encoding.md R90). -/
def Instr.imm16 : Instr → Half
  | .hdrSetCsum value => value
  | .pshEncode udpLength => udpLength
  | .hdrConstruct | .hdrEncode | .hdrDecode | .csumBuf | .pktConstruct | .pktEncode | .pktDecode | .pktCsum => 0#16

/-- Why a word is no command (30_encoding.md R95). All three complete with IllegalCommand; the names serve a reader. -/
inductive IllegalWord where
  /-- RSV is not 0x00 -/
  | reservedByteSet
  /-- OP is 0x00 or 0x0B to 0xFF -/
  | reservedOpcode
  /-- IMM16 is not 0 for a command that takes no immediate -/
  | immediateSet
deriving DecidableEq, Repr

/-- A row of the opcode map (30_encoding.md R93): a word w belongs to it when `w & mask = value`. -/
structure OpcodeRow where
  mnemonic : Mnemonic
  value    : Word
  mask     : Word
deriving DecidableEq, Repr

/-- An assembler line (30_encoding.md R98): a mnemonic and the number written after it, if any. -/
structure AsmLine where
  mnemonic : Mnemonic
  operand  : Option Nat
deriving DecidableEq, Repr

end Sys2Proof
end

