-- ==== Sys2Proof/WellFormed.lean ====
section
/-! DEFINITION. What an assembler accepts (30_encoding.md R98). A term of `Instr` is well-formed by its type: its
immediates are 16 bits wide and it has no other field (log 13), so the checks stand on the assembler line. -/

namespace Sys2Proof

/-- HDR_SET_CSUM and PSH_ENCODE take one operand; no other command takes one (30_encoding.md R98). -/
def Mnemonic.takesImmediate : Mnemonic → Bool
  | .HDR_SET_CSUM | .PSH_ENCODE => true
  | .HDR_CONSTRUCT | .HDR_ENCODE | .HDR_DECODE | .CSUM_BUF | .PKT_CONSTRUCT | .PKT_ENCODE | .PKT_DECODE | .PKT_CSUM => false

/-- "A mnemonic with an operand out of 0 to 0xFFFF, or an operand given to a command of IMM16 = 0, is an assembly error,
not a command" (30_encoding.md R98). An immediate command without its operand is none either. -/
def AsmLine.wellFormed (line : AsmLine) : Bool :=
  match line.operand with
  | none => !line.mnemonic.takesImmediate
  | some imm => line.mnemonic.takesImmediate && decide (imm ≤ 0xFFFF)

end Sys2Proof
end

