-- ==== Sys2Proof/Decode.lean ====
section
/-! DEFINITION. The decoder of 30_encoding.md R96, the opcode map of R93, the encoder of R98 and the assembler. -/

namespace Sys2Proof

/-- `OP`, bits 7:0 of a command word (30_encoding.md R90). -/
def opField (w : Word) : Byte := w.extractLsb' 0 8

/-- `RSV`, bits 15:8 of a command word (30_encoding.md R90). -/
def rsvField (w : Word) : Byte := w.extractLsb' 8 8

/-- `IMM16`, bits 31:16 of a command word (30_encoding.md R90, R91). -/
def immField (w : Word) : Half := w.extractLsb' 16 16

/-- A command without an immediate: illegal when IMM16 is not 0 (30_encoding.md R95, R96). -/
def withoutImmediate (w : Word) (i : Instr) : Except IllegalWord Instr :=
  if immField w = 0#16 then .ok i else .error .immediateSet

/-- Decode is total: every word is one command of the opcode map or illegal (30_encoding.md R96). -/
def decode (w : Word) : Except IllegalWord Instr :=
  if rsvField w = 0#8 then
    match (opField w).toNat with
    | 0x01 => withoutImmediate w .hdrConstruct
    | 0x02 => .ok (.hdrSetCsum (immField w))
    | 0x03 => withoutImmediate w .hdrEncode
    | 0x04 => withoutImmediate w .hdrDecode
    | 0x05 => .ok (.pshEncode (immField w))
    | 0x06 => withoutImmediate w .csumBuf
    | 0x07 => withoutImmediate w .pktConstruct
    | 0x08 => withoutImmediate w .pktEncode
    | 0x09 => withoutImmediate w .pktDecode
    | 0x0A => withoutImmediate w .pktCsum
    | _ => .error .reservedOpcode
  else .error .reservedByteSet

/-- The opcode map (30_encoding.md R93), match and mask of each row as the spec's table has them. -/
def opcodeMap : List OpcodeRow :=
  [⟨.HDR_CONSTRUCT, 0x00000001#32, 0xFFFFFFFF#32⟩,
   ⟨.HDR_SET_CSUM,  0x00000002#32, 0x0000FFFF#32⟩,
   ⟨.HDR_ENCODE,    0x00000003#32, 0xFFFFFFFF#32⟩,
   ⟨.HDR_DECODE,    0x00000004#32, 0xFFFFFFFF#32⟩,
   ⟨.PSH_ENCODE,    0x00000005#32, 0x0000FFFF#32⟩,
   ⟨.CSUM_BUF,      0x00000006#32, 0xFFFFFFFF#32⟩,
   ⟨.PKT_CONSTRUCT, 0x00000007#32, 0xFFFFFFFF#32⟩,
   ⟨.PKT_ENCODE,    0x00000008#32, 0xFFFFFFFF#32⟩,
   ⟨.PKT_DECODE,    0x00000009#32, 0xFFFFFFFF#32⟩,
   ⟨.PKT_CSUM,      0x0000000A#32, 0xFFFFFFFF#32⟩]

/-- "A word w is the command of a row when `(w & mask) = match`" (30_encoding.md R93). -/
def OpcodeRow.accepts (row : OpcodeRow) (w : Word) : Bool := w &&& row.mask == row.value

/-- The operation code of a mnemonic: column OP of 30_encoding.md R93. -/
def Mnemonic.opcode : Mnemonic → Byte
  | .HDR_CONSTRUCT => 0x01#8
  | .HDR_SET_CSUM => 0x02#8
  | .HDR_ENCODE => 0x03#8
  | .HDR_DECODE => 0x04#8
  | .PSH_ENCODE => 0x05#8
  | .CSUM_BUF => 0x06#8
  | .PKT_CONSTRUCT => 0x07#8
  | .PKT_ENCODE => 0x08#8
  | .PKT_DECODE => 0x09#8
  | .PKT_CSUM => 0x0A#8

/-- The word of a command: `{IMM16, 0x00, OP}` (30_encoding.md R98). -/
def encode (i : Instr) : Word := i.imm16 ++ 0x00#8 ++ i.mnemonic.opcode

/-- The command of a mnemonic with a given immediate; a command without one drops it. -/
def Mnemonic.instr (imm : Half) : Mnemonic → Instr
  | .HDR_CONSTRUCT => .hdrConstruct
  | .HDR_SET_CSUM => .hdrSetCsum imm
  | .HDR_ENCODE => .hdrEncode
  | .HDR_DECODE => .hdrDecode
  | .PSH_ENCODE => .pshEncode imm
  | .CSUM_BUF => .csumBuf
  | .PKT_CONSTRUCT => .pktConstruct
  | .PKT_ENCODE => .pktEncode
  | .PKT_DECODE => .pktDecode
  | .PKT_CSUM => .pktCsum

/-- The word an assembler line stands for; an assembly error gives none (30_encoding.md R98). -/
def AsmLine.assemble (line : AsmLine) : Option Word :=
  if line.wellFormed then some (encode (line.mnemonic.instr (BitVec.ofNat 16 (line.operand.getD 0)))) else none

/-- The command the decoder reads from the `nbits` low bits of `w`, every bit above them 0. A command is one 32-bit word
whose bit 0 is bit 0 of CMD (30_encoding.md R90): the word goes to the decoder as it is. -/
def decodeTableWord (nbits w : Nat) : Option Instr :=
  (decode (BitVec.ofNat 32 (w % 2 ^ nbits))).toOption

end Sys2Proof
end

