-- ==== Sys2Proof/Machine/State.lean ====
section
/-! DEFINITION. The state of one UDPCK block (10_state.md R49) as plain data, with what the model adds for its two agents,
the command latency, the reset input and the unknown bytes of PBUF. -/

namespace Sys2Proof.Machine

/-- The five operand registers (10_state.md R20, R21); also their latched copies (R26). -/
structure Operands where
  srcIp : Word
  dstIp : Word
  ports : Word
  len   : Word
  addr  : Word
deriving DecidableEq, Repr

/-- The header register: the block's one UDP header (10_state.md R30). -/
structure Header where
  sport : Half
  dport : Half
  len   : Half
  csum  : Half
deriving DecidableEq, Repr

/-- STATUS (10_state.md R42); ERR is derived from ERRCODE (R43, R49). -/
structure Status where
  busy     : Bool
  done     : Bool
  pktValid : Bool
  anyErr   : Bool
  ovr      : Bool
  errCode  : BitVec 4
deriving DecidableEq, Repr

/-- The latch a command reads (10_state.md R26): L_CMD and the latched operands. What it holds while BUSY = 0 the spec leaves
open (93_implementation_defined.md U3); the model's choice is log 3. -/
structure Latch where
  cmd  : Word
  args : Operands
deriving DecidableEq, Repr

/-- PBUF's known bytes: the bytes written since reset, by strictly rising offset (20_memory.md R60,
70_reset_and_hazards.md R231). An offset that is not listed is unknown (log 2). -/
abbrev Memory := List Host.Cell

/-- One step of one agent. 20_memory.md R78: "A host step is one legal access", "An engine step is the completion of the
command in flight"; the reset input is the platform's (70_reset_and_hazards.md R230). Widths are in bits, offsets count
from UDPCK_BASE. A write's datum is the low `width` bits of `value` (log 9). -/
inductive Event where
  /-- the host reads `width` bits at `offset` -/
  | hostRead (width offset : Nat)
  /-- the host writes the low `width` bits of `value` at `offset` -/
  | hostWrite (width offset : Nat) (value : Word)
  /-- the engine takes one step of its own -/
  | engine
  /-- the platform drives the reset input -/
  | reset (asserted : Bool)
deriving DecidableEq, Repr

/-- The block, and what drives it. -/
structure State where
  /-- CTRL.IE (10_state.md R41) -/
  ctrlIe        : Bool
  /-- STATUS (10_state.md R42) -/
  status        : Status
  /-- CMD: the last accepted command word (10_state.md R44) -/
  cmd           : Word
  /-- ARG_SRC_IP, ARG_DST_IP, ARG_PORTS, ARG_LEN, ARG_ADDR (10_state.md R25) -/
  args          : Operands
  /-- H_SPORT, H_DPORT, H_LEN, H_CSUM (10_state.md R30) -/
  hdr           : Header
  /-- CSUM_OUT[15:0] (10_state.md R45) -/
  csumOut       : Half
  /-- XLEN[15:0] (10_state.md R46) -/
  xlen          : Half
  /-- the latch (10_state.md R26, R48) -/
  latch         : Latch
  /-- PBUF (20_memory.md R60) -/
  pbuf          : Memory
  /-- the model's own (log 1): how many times reset has made PBUF unknown -/
  pbufEpoch     : Nat
  /-- the model's own (logs 1, 11): the block's number, which keeps its unknown bytes apart from another block's -/
  pbufBlock     : Nat
  /-- the level of the reset input (70_reset_and_hazards.md R230) -/
  resetAsserted : Bool
  /-- the model's own (log 5): the engine steps the command in flight still takes, its completion counted -/
  engineLeft    : Nat
  /-- the model's own (log 5): CMD_LATENCY of the commands still to be accepted, the next one first -/
  cmdLatencies  : List Nat
  /-- the model's own (log 4): what happens next, in order -/
  schedule      : List Event
  /-- the model's own (log 9): what the last host read returned -/
  busData       : Option Word
deriving DecidableEq, Repr

/-- No step of the block is a fault: "No error stops the block" (60_exceptions.md R206), and it takes no traps (R214).
Errors are codes in STATUS (log 16). The type is closed and has no constructor. -/
inductive Fault
deriving DecidableEq, Repr

/-- The steps a model refuses. No command is among them. -/
inductive Refusal where
  /-- raised by no arm now: an instruction without a meaning. Safe: the run stops. -/
  | notModelled (mnemonic : String)
  /-- raised by a host access of an illegal width or alignment (20_memory.md R64, R65: "A model refuses such an access
  (no step)"). Safe: the run stops. -/
  | busError
  /-- raised by a host access at an offset outside the window (20_memory.md R63; log 7). Safe: the run stops. -/
  | outsideWindow
  /-- raised by a host access while reset is asserted (70_reset_and_hazards.md R230: "a model refuses them"). Safe: the run
  stops. -/
  | accessDuringReset
deriving DecidableEq, Repr

/-- Five operand registers of 0. -/
def Operands.zero : Operands := ⟨0#32, 0#32, 0#32, 0#32, 0#32⟩

/-- The block right after reset (70_reset_and_hazards.md R232). The latch is unknown there and 0 here (log 3); the model's
own fields are as logs 1, 4, 5, 6 and 9 say. -/
def State.reset : State where
  ctrlIe        := false
  status        := ⟨false, false, false, false, false, 0#4⟩
  cmd           := 0#32
  args          := Operands.zero
  hdr           := ⟨0#16, 0#16, 0#16, 0#16⟩
  csumOut       := 0#16
  xlen          := 0#16
  latch         := ⟨0#32, Operands.zero⟩
  pbuf          := []
  pbufEpoch     := 0
  pbufBlock     := 0
  resetAsserted := false
  engineLeft    := 0
  cmdLatencies  := []
  schedule      := []
  busData       := none

end Sys2Proof.Machine
end

