-- ==== Sys2Proof/Machine/Operands.lean ====
section
/-! DEFINITION. The operand forms and the byte layouts: big-endian fields (00_scope.md R11, 20_memory.md R66), the header
codec (41_header.md R111) and the pseudo-header (42_pseudo_header.md R130). -/

namespace Sys2Proof.Machine

/-- `BE16(v) = [v[15:8], v[7:0]]` (00_scope.md R11). -/
def be16 (v : Half) : List Byte := [v.extractLsb' 8 8, v.extractLsb' 0 8]

/-- `BE32(v) = [v[31:24], v[23:16], v[15:8], v[7:0]]` (00_scope.md R11). -/
def be32 (v : Word) : List Byte :=
  [v.extractLsb' 24 8, v.extractLsb' 16 8, v.extractLsb' 8 8, v.extractLsb' 0 8]

/-- Two bytes as a 16-bit value, the byte at the lower offset on top (20_memory.md R66). -/
def half (hi lo : Byte) : Half := hi ++ lo

/-- Four bytes as a 32-bit value, the byte at the lowest offset on top (20_memory.md R66). -/
def word (b0 b1 b2 b3 : Byte) : Word := b0 ++ b1 ++ b2 ++ b3

/-- `rd16(s, k) = {s[k], s[k+1]}` (00_scope.md R11). A byte that s does not have counts as 0: no caller reads one. -/
def rd16 (s : List Byte) (k : Nat) : Half := half (s.getD k 0#8) (s.getD (k + 1) 0#8)

/-- `enc_hdr`: the header's 8 wire bytes (41_header.md R111). -/
def encHdr (h : Header) : List Byte := be16 h.sport ++ be16 h.dport ++ be16 h.len ++ be16 h.csum

/-- `dec_hdr`: the fields at offsets 0, 2, 4 and 6 (41_header.md R110, R111). -/
def decHdr (s : List Byte) : Header := ⟨rd16 s 0, rd16 s 2, rd16 s 4, rd16 s 6⟩

/-- `psh`: the 12 bytes of the pseudo-header (42_pseudo_header.md R130). -/
def psh (src dst : Word) (udpLength : Half) : List Byte :=
  be32 src ++ be32 dst ++ [0x00#8] ++ [Config.udpProtocol] ++ be16 udpLength

/-- ARG_PORTS.SRC_PORT, bits 31:16 (10_state.md R21). -/
def Operands.srcPort (a : Operands) : Half := a.ports.extractLsb' 16 16

/-- ARG_PORTS.DST_PORT, bits 15:0 (10_state.md R21). -/
def Operands.dstPort (a : Operands) : Half := a.ports.extractLsb' 0 16

/-- ARG_LEN as an exact number: no sum with it wraps (41_header.md R112, 43_checksum.md R149). -/
def Operands.length (a : Operands) : Nat := a.len.toNat

/-- ARG_ADDR as an exact number (42_pseudo_header.md R133, 43_checksum.md R150). -/
def Operands.offset (a : Operands) : Nat := a.addr.toNat

/-- The header a construct builds from the two ports and a payload of n bytes (41_header.md R112, 44_packet.md R161). -/
def Operands.newHeader (a : Operands) (n : Nat) (csum : Half) : Header :=
  ⟨a.srcPort, a.dstPort, BitVec.ofNat 16 (Config.headerBytes + n), csum⟩

end Sys2Proof.Machine
end

