-- ==== Sys2Proof/Machine/Flags.lean ====
section
/-! DEFINITION. STATUS: its error codes (60_exceptions.md R200), its 32-bit view and its write-1-to-clear bits (10_state.md
R42), its fields at acceptance and at completion (60_exceptions.md R207, R208), and the interrupt output (R212). -/

namespace Sys2Proof.Machine

/-- The error kinds of 60_exceptions.md R200. -/
inductive CmdError where
  | payloadTooLarge | truncatedHeader | truncatedPacket | lengthMismatch | illegalCommand | badRange | noPacket
deriving DecidableEq, Repr

/-- The code of an error kind (60_exceptions.md R200). -/
def CmdError.code : CmdError → BitVec 4
  | .payloadTooLarge => 1#4
  | .truncatedHeader => 2#4
  | .truncatedPacket => 3#4
  | .lengthMismatch => 4#4
  | .illegalCommand => 5#4
  | .badRange => 6#4
  | .noPacket => 7#4

/-- The code of success (60_exceptions.md R200). -/
def codeOk : BitVec 4 := 0#4

/-- STATUS.ERR: "1 exactly when ERRCODE is not 0, at every moment" (10_state.md R43). -/
def Status.err (st : Status) : Bool := st.errCode != 0#4

/-- STATUS as the host reads it (10_state.md R42). -/
def Status.toWord (st : Status) : Word :=
  0#20 ++ st.errCode ++ 0#2 ++ BitVec.ofBool st.ovr ++ BitVec.ofBool st.anyErr ++ BitVec.ofBool st.pktValid ++
    BitVec.ofBool st.err ++ BitVec.ofBool st.done ++ BitVec.ofBool st.busy

/-- A host write to STATUS: 1 clears DONE, ANYERR and OVR; every other bit is ignored (10_state.md R42). -/
def Status.clearBits (st : Status) (v : Word) : Status :=
  { st with
    done := st.done && !v.getLsbD 1
    anyErr := st.anyErr && !v.getLsbD 4
    ovr := st.ovr && !v.getLsbD 5 }

/-- A refused write sets OVR (10_state.md R44, 20_memory.md R70). -/
def Status.overrun (st : Status) : Status := { st with ovr := true }

/-- STATUS at acceptance: BUSY set, DONE cleared, nothing else (60_exceptions.md R207). -/
def Status.accepted (st : Status) : Status := { st with busy := true, done := false }

/-- STATUS at a completion with `code`: the completion fields (60_exceptions.md R208). -/
def Status.completed (st : Status) (code : BitVec 4) : Status :=
  { st with errCode := code, anyErr := st.anyErr || code != 0#4, busy := false, done := true }

/-- The interrupt output `IRQ = CTRL.IE & STATUS.DONE` (60_exceptions.md R212). -/
def State.irq (s : State) : Bool := s.ctrlIe && s.status.done

end Sys2Proof.Machine
end

