-- ==== Sys2Proof/Machine/Ops.lean ====
section
/-! DEFINITION. The named operations over the state: PBUF (20_memory.md R60, 00_scope.md R13), the registers' homes, the
acceptance and the completion of a command (60_exceptions.md R207, R208), and reset (70_reset_and_hazards.md R230). -/

namespace Sys2Proof.Machine

/-! ### PBUF -/

/-- The byte written at `a` since reset, if one was. -/
def Memory.get? : Memory → Nat → Option Byte
  | [], _ => none
  | (k, b) :: m, a => if k = a then some b else Memory.get? m a

/-- Write one byte, keeping the list strictly rising (log 2). -/
def Memory.set : Memory → Nat → Byte → Memory
  | [], a, b => [(a, b)]
  | (k, c) :: m, a, b =>
    if a < k then (a, b) :: (k, c) :: m
    else if a = k then (a, b) :: m
    else (k, c) :: Memory.set m a b

/-- Write the bytes `bs` at `a`, `a + 1`, ... -/
def Memory.setBytes : Memory → Nat → List Byte → Memory
  | m, _, [] => m
  | m, a, b :: bs => Memory.setBytes (Memory.set m a b) (a + 1) bs

/-- Every listed offset is at least `lo`, inside PBUF, and below the next one. -/
def Memory.wfFrom : Nat → Memory → Bool
  | _, [] => true
  | lo, (k, _) :: m => decide (lo ≤ k) && decide (k < Config.bufBytes) && Memory.wfFrom (k + 1) m

/-- The canonical form of PBUF: strictly rising offsets, all inside the buffer (log 2). -/
def Memory.wf (m : Memory) : Bool := Memory.wfFrom 0 m

/-- PBUF[a]: what was written there since reset; else the unknown byte of this block and this reset
(70_reset_and_hazards.md R231). Which unknown bytes are equal is the model's choice (logs 1, 11). -/
def State.readByte (s : State) (a : Nat) : Byte :=
  (s.pbuf.get? a).getD (Config.unknownByte s.pbufBlock s.pbufEpoch a)

/-- `MemRead(a, n)`: the bytes `PBUF[a..a+n)` (00_scope.md R13). -/
def State.memRead (s : State) (a n : Nat) : List Byte := (List.range n).map fun k => s.readByte (a + k)

/-- `MemWrite(a, n, bs)` with n the length of bs (00_scope.md R13). -/
def State.memWrite (s : State) (a : Nat) (bs : List Byte) : State := { s with pbuf := s.pbuf.setBytes a bs }

/-! ### Registers that commands write (10_state.md R32, R38, R45, R46) -/

/-- The header register's one write (10_state.md R32). -/
def State.setHdr (s : State) (h : Header) : State := { s with hdr := h }

/-- STATUS.PKT_VALID's one write (10_state.md R38). -/
def State.setPktValid (s : State) (v : Bool) : State := { s with status := { s.status with pktValid := v } }

/-- CSUM_OUT's one write (10_state.md R45). -/
def State.setCsumOut (s : State) (c : Half) : State := { s with csumOut := c }

/-- XLEN's one write (10_state.md R46). -/
def State.setXlen (s : State) (n : Half) : State := { s with xlen := n }

/-! ### Acceptance and completion -/

/-- A value of CMD_LATENCY: at least 1 (00_scope.md R8); 1 where the plan names none (log 5). -/
def nextLatency (plan : List Nat) : Nat := max 1 (plan.headD 1)

/-- Acceptance of the command word w (60_exceptions.md R207). -/
def State.accept (s : State) (w : Word) : State :=
  { s with
    cmd := w
    latch := ⟨w, s.args⟩
    status := s.status.accepted
    engineLeft := nextLatency s.cmdLatencies
    cmdLatencies := s.cmdLatencies.tail }

/-- The completion fields of STATUS, with `code` (60_exceptions.md R208); the engine has no step left. The latch keeps its
values: what it holds while BUSY = 0 is any value in the spec (93_implementation_defined.md U3), and keeping the last latched
values is the model's choice (DESIGN CHOICE, log 3). -/
def State.complete (s : State) (code : BitVec 4) : State :=
  { s with status := s.status.completed code, engineLeft := 0 }

/-- The completion of a command whose pseudocode ends in `r` (60_exceptions.md R205, R208; 00_scope.md R14): all its writes
and code 0, or none of them and the error's code. The one shared operation through which an error is reported. -/
def finish (s : State) (r : Except CmdError State) : Host.Outcome State Fault Refusal :=
  match r with
  | .ok t => .next (t.complete codeOk)
  | .error e => .next (s.complete e.code)

/-- `if bad then raise e` in a command's pseudocode, and the writes that follow it (00_scope.md R14). -/
def raiseIf (bad : Bool) (e : CmdError) (rest : Except CmdError State) : Except CmdError State :=
  if bad then .error e else rest

/-- The word w as a command in flight whose next engine step completes it: what a host's CMD write and the engine's waiting
lead to (log 10). -/
def State.arm (s : State) (w : Word) : State :=
  { s with
    cmd := w
    latch := ⟨w, s.args⟩
    status := s.status.accepted
    engineLeft := 1
    resetAsserted := false
    schedule := .engine :: s.schedule }

/-! ### Reset -/

/-- What the reset input does to the block (70_reset_and_hazards.md R230 to R232): every register at its reset value, every
PBUF byte unknown anew, the latch at the model's 0 (log 3). What drives the block is not part of it and stays (log 6). -/
def State.resetBlock (s : State) (asserted : Bool) : State :=
  { State.reset with
    pbufEpoch := s.pbufEpoch + 1
    pbufBlock := s.pbufBlock
    resetAsserted := asserted
    cmdLatencies := s.cmdLatencies
    schedule := s.schedule
    busData := s.busData }

/-- The platform drives the reset input (70_reset_and_hazards.md R230): the registers take their reset values while it is
asserted and hold them when it is released; a release of an input that is not asserted changes nothing (log 6). -/
def State.driveReset (s : State) (asserted : Bool) : State :=
  if asserted || s.resetAsserted then s.resetBlock asserted else s

end Sys2Proof.Machine
end

