-- ==== Sys2Proof/Machine/Checksum.lean ====
section
/-! DEFINITION. The checksum function (43_checksum.md R140 to R147) and CSUM_BUF (R150). -/

namespace Sys2Proof.Machine

/-- Step 1: "If the concatenated buffer length is odd, append one zero byte" (43_checksum.md R140, R141). -/
def padEven (bs : List Byte) : List Byte := if bs.length % 2 = 1 then bs ++ [0x00#8] else bs

/-- Step 2: the exact sum of the big-endian words (43_checksum.md R142). On a sequence of even length the one-byte case
is not reached. -/
def wordSum : List Byte → Nat
  | [] => 0
  | [b] => (half b 0x00#8).toNat
  | b :: c :: rest => (half b c).toNat + wordSum rest

/-- One pass of step 3: `(a & 0xFFFF) + (a >> 16)` (43_checksum.md R142). -/
def foldStep (a : Nat) : Nat := (a &&& 0xFFFF) + (a >>> 16)

/-- Step 3's loop, at most `fuel` passes. -/
def foldLoop : Nat → Nat → Nat
  | 0, a => a
  | fuel + 1, a => if a > 0xFFFF then foldLoop fuel (foldStep a) else a

/-- `Fold` (43_checksum.md R142). A pass makes a value above 0xFFFF smaller, so a passes are enough (log 15). -/
def fold (a : Nat) : Nat := foldLoop a a

/-- Step 5, the zero rule (43_checksum.md R145; 90_conflicts.md C1: the value tested is the complemented one). -/
def zeroRule (r : Half) : Half := if r = 0x0000#16 then 0xFFFF#16 else r

/-- `Checksum` (43_checksum.md R147). -/
def checksum (bs : List Byte) : Half := zeroRule (~~~ BitVec.ofNat 16 (fold (wordSum (padEven bs))))

/-- CSUM_BUF (43_checksum.md R150 to R152). -/
def execCsumBuf (s : State) : Host.Outcome State Fault Refusal :=
  let a := s.latch.args.offset
  let n := s.latch.args.length
  finish s <|
    raiseIf (decide (a + n > Config.bufBytes)) .badRange <|
      .ok (s.setCsumOut (checksum (s.memRead a n)))

end Sys2Proof.Machine
end

