-- ==== Sys2Proof/Machine/HeaderCmds.lean ====
section
/-! DEFINITION. The UDP header commands (41_header.md). -/

namespace Sys2Proof.Machine

/-- HDR_CONSTRUCT (41_header.md R112, R113). -/
def execHdrConstruct (s : State) : Host.Outcome State Fault Refusal :=
  let n := s.latch.args.length
  finish s <|
    raiseIf (decide (Config.headerBytes + n > Config.maxUdpLength)) .payloadTooLarge <|
      .ok ((s.setHdr (s.latch.args.newHeader n 0#16)).setPktValid false)

/-- HDR_SET_CSUM (41_header.md R114, R115). -/
def execHdrSetCsum (value : Half) (s : State) : Host.Outcome State Fault Refusal :=
  finish s (.ok (s.setHdr { s.hdr with csum := value }))

/-- HDR_ENCODE (41_header.md R116, R117). -/
def execHdrEncode (s : State) : Host.Outcome State Fault Refusal :=
  finish s (.ok (s.memWrite 0 (encHdr s.hdr)))

/-- HDR_DECODE (41_header.md R119 to R122). -/
def execHdrDecode (s : State) : Host.Outcome State Fault Refusal :=
  finish s <|
    raiseIf (decide (s.latch.args.length < Config.headerBytes)) .truncatedHeader <|
      .ok ((s.setHdr (decHdr (s.memRead 0 Config.headerBytes))).setPktValid false)

end Sys2Proof.Machine
end

