-- ==== Sys2Proof/Machine/PacketCmds.lean ====
section
/-! DEFINITION. The packet commands (44_packet.md). -/

namespace Sys2Proof.Machine

/-- The checksum input of a packet: "pseudo-header ‖ header(checksum=0) ‖ payload" (44_packet.md R163), the pseudo-header's
UDP length the header's own length (42_pseudo_header.md R137). -/
def packetInput (src dst : Word) (h : Header) (payload : List Byte) : List Byte :=
  psh src dst h.len ++ encHdr { h with csum := 0#16 } ++ payload

/-- PKT_CONSTRUCT (44_packet.md R161 to R165). -/
def execPktConstruct (s : State) : Host.Outcome State Fault Refusal :=
  let a := s.latch.args
  let n := a.length
  let c := checksum (packetInput a.srcIp a.dstIp (a.newHeader n 0#16) (s.memRead Config.headerBytes n))
  finish s <|
    raiseIf (decide (Config.headerBytes + n > Config.maxUdpLength)) .payloadTooLarge <|
      .ok ((s.setHdr (a.newHeader n c)).setPktValid true)

/-- PKT_ENCODE (44_packet.md R166, R167). -/
def execPktEncode (s : State) : Host.Outcome State Fault Refusal :=
  finish s <|
    raiseIf (!s.status.pktValid) .noPacket <|
      .ok ((s.memWrite 0 (encHdr s.hdr)).setXlen s.hdr.len)

/-- PKT_DECODE (44_packet.md R170 to R174): the byte count is tested first (R171). -/
def execPktDecode (s : State) : Host.Outcome State Fault Refusal :=
  let m := s.latch.args.length
  let h := decHdr (s.memRead 0 Config.headerBytes)
  finish s <|
    raiseIf (decide (m < Config.headerBytes)) .truncatedPacket <|
      raiseIf (decide (h.len.toNat ≠ m)) .lengthMismatch <|
        .ok ((s.setHdr h).setPktValid true)

/-- PKT_CSUM (44_packet.md R180, R181). `L - 8` is a natural number: while PKT_VALID = 1, `H_LEN >= 8` (log 15). -/
def execPktCsum (s : State) : Host.Outcome State Fault Refusal :=
  let a := s.latch.args
  let payload := s.memRead Config.headerBytes (s.hdr.len.toNat - Config.headerBytes)
  finish s <|
    raiseIf (!s.status.pktValid) .noPacket <|
      .ok (s.setCsumOut (checksum (packetInput a.srcIp a.dstIp s.hdr payload)))

end Sys2Proof.Machine
end

