-- ==== Sys2Proof/Machine/PseudoHeader.lean ====
section
/-! DEFINITION. The pseudo-header command (42_pseudo_header.md). -/

namespace Sys2Proof.Machine

/-- PSH_ENCODE (42_pseudo_header.md R133 to R135). -/
def execPshEncode (udpLength : Half) (s : State) : Host.Outcome State Fault Refusal :=
  let a := s.latch.args.offset
  finish s <|
    raiseIf (decide (a + Config.pseudoHeaderBytes > Config.bufBytes)) .badRange <|
      .ok (s.memWrite a (psh s.latch.args.srcIp s.latch.args.dstIp udpLength))

end Sys2Proof.Machine
end

