-- ==== Sys2Proof/Machine/Dispatch.lean ====
section
/-! DEFINITION. The meaning of each command: what its completion does (60_exceptions.md R208). One arm per command. -/

namespace Sys2Proof.Machine

def exec (i : Instr) (s : State) : Host.Outcome State Fault Refusal :=
  match i with
  | .hdrConstruct => Sys2Proof.Machine.execHdrConstruct s
  | .hdrSetCsum value => Sys2Proof.Machine.execHdrSetCsum value s
  | .hdrEncode => Sys2Proof.Machine.execHdrEncode s
  | .hdrDecode => Sys2Proof.Machine.execHdrDecode s
  | .pshEncode udpLength => Sys2Proof.Machine.execPshEncode udpLength s
  | .csumBuf => Sys2Proof.Machine.execCsumBuf s
  | .pktConstruct => Sys2Proof.Machine.execPktConstruct s
  | .pktEncode => Sys2Proof.Machine.execPktEncode s
  | .pktDecode => Sys2Proof.Machine.execPktDecode s
  | .pktCsum => Sys2Proof.Machine.execPktCsum s

end Sys2Proof.Machine
end

