-- ==== Sys2Proof/Machine/HostAccess.lean ====
section
/-! DEFINITION. The host's accesses: the register map (10_state.md R23), the window (20_memory.md R63), which accesses are
legal (R64, R65), what they read and write (R67, R70, R71), and refused accesses. -/

namespace Sys2Proof.Machine

/-- The registers of the register window (10_state.md R23). -/
inductive Reg where
  | id | ctrl | status | cmd | argSrcIp | argDstIp | argPorts | argLen | argAddr
  | hdrPorts | hdrLencsum | csumOut | xlen
deriving DecidableEq, Repr

/-- The register at a window offset; a reserved offset has none (10_state.md R23). -/
def Reg.ofOffset : Nat → Option Reg
  | 0x00 => some .id
  | 0x04 => some .ctrl
  | 0x08 => some .status
  | 0x0C => some .cmd
  | 0x10 => some .argSrcIp
  | 0x14 => some .argDstIp
  | 0x18 => some .argPorts
  | 0x1C => some .argLen
  | 0x20 => some .argAddr
  | 0x24 => some .hdrPorts
  | 0x28 => some .hdrLencsum
  | 0x2C => some .csumOut
  | 0x30 => some .xlen
  | _ => none

/-- The window offset of a register (10_state.md R23). -/
def Reg.offset : Reg → Nat
  | .id => 0x00
  | .ctrl => 0x04
  | .status => 0x08
  | .cmd => 0x0C
  | .argSrcIp => 0x10
  | .argDstIp => 0x14
  | .argPorts => 0x18
  | .argLen => 0x1C
  | .argAddr => 0x20
  | .hdrPorts => 0x24
  | .hdrLencsum => 0x28
  | .csumOut => 0x2C
  | .xlen => 0x30

/-- What a host read of a register returns. Reserved bits read 0 (10_state.md R24, R31, R40 to R46). -/
def State.readReg (s : State) : Reg → Word
  | .id => Config.idValue
  | .ctrl => 0#31 ++ BitVec.ofBool s.ctrlIe
  | .status => s.status.toWord
  | .cmd => s.cmd
  | .argSrcIp => s.args.srcIp
  | .argDstIp => s.args.dstIp
  | .argPorts => s.args.ports
  | .argLen => s.args.len
  | .argAddr => s.args.addr
  | .hdrPorts => s.hdr.sport ++ s.hdr.dport
  | .hdrLencsum => s.hdr.len ++ s.hdr.csum
  | .csumOut => 0#16 ++ s.csumOut
  | .xlen => 0#16 ++ s.xlen

/-- A host write to CMD: accepted while BUSY = 0, else refused with OVR set (10_state.md R44). -/
def State.writeCmd (s : State) (w : Word) : State :=
  if s.status.busy then { s with status := s.status.overrun } else s.accept w

/-- What a host write of v to a register does; a write to a read-only register is ignored (10_state.md R24, R25, R41, R42,
R44). BUSY blocks no register but CMD (20_memory.md R70). -/
def State.writeReg (s : State) (v : Word) : Reg → State
  | .ctrl => { s with ctrlIe := v.getLsbD 0 }
  | .status => { s with status := s.status.clearBits v }
  | .cmd => s.writeCmd v
  | .argSrcIp => { s with args := { s.args with srcIp := v } }
  | .argDstIp => { s with args := { s.args with dstIp := v } }
  | .argPorts => { s with args := { s.args with ports := v } }
  | .argLen => { s with args := { s.args with len := v } }
  | .argAddr => { s with args := { s.args with addr := v } }
  | .id | .hdrPorts | .hdrLencsum | .csumOut | .xlen => s

/-- The bytes of PBUF at k as the host's big-endian lanes carry them, zero-extended (20_memory.md R67, log 9). Only the
three legal widths reach it. -/
def State.lanesAt (s : State) (width k : Nat) : Word :=
  match width with
  | 8 => (s.readByte k).setWidth 32
  | 16 => (half (s.readByte k) (s.readByte (k + 1))).setWidth 32
  | _ => word (s.readByte k) (s.readByte (k + 1)) (s.readByte (k + 2)) (s.readByte (k + 3))

/-- The bytes a host write of `width` bits of v stores, lowest offset first (20_memory.md R67). Only the three legal widths
reach it. -/
def laneBytes (width : Nat) (v : Word) : List Byte :=
  match width with
  | 8 => [v.setWidth 8]
  | 16 => be16 (v.setWidth 16)
  | _ => be32 v

/-- A legal host read of PBUF: 0 in every byte while BUSY = 1 (20_memory.md R69, R70). -/
def State.hostReadPbuf (s : State) (width k : Nat) : Word :=
  if s.status.busy then 0#32 else s.lanesAt width k

/-- A legal host write of PBUF: ignored, with OVR set, while BUSY = 1 (20_memory.md R69, R70). -/
def State.hostWritePbuf (s : State) (width k : Nat) (v : Word) : State :=
  if s.status.busy then { s with status := s.status.overrun } else s.memWrite k (laneBytes width v)

/-- The legal accesses of the window (20_memory.md R64, R65): aligned 32 bits below the PBUF window, naturally aligned 8, 16
or 32 bits in it. -/
def legalAccess (width offset : Nat) : Bool :=
  if offset < Config.pbufWindow then width == 32 && offset % 4 == 0
  else (width == 8 || width == 16 || width == 32) && offset % (width / 8) == 0

/-- Why a host access is refused, if it is: while reset is asserted (70_reset_and_hazards.md R230), outside the window
(20_memory.md R63), or an illegal width or alignment (R64, R65). The order of the three is the model's (log 7). -/
def State.refusal? (s : State) (width offset : Nat) : Option Refusal :=
  if s.resetAsserted then some .accessDuringReset
  else if Config.windowBytes ≤ offset then some .outsideWindow
  else if legalAccess width offset then none
  else some .busError

/-- What a legal host read returns: PBUF, a register, or 0 for a reserved offset (20_memory.md R63, 10_state.md R24). -/
def State.hostReadValue (s : State) (width offset : Nat) : Word :=
  if Config.pbufWindow ≤ offset then s.hostReadPbuf width (offset - Config.pbufWindow)
  else (Reg.ofOffset offset).elim 0#32 s.readReg

/-- What a legal host write does; a reserved offset ignores it (20_memory.md R63, 10_state.md R24). -/
def State.hostWriteEffect (s : State) (width offset : Nat) (v : Word) : State :=
  if Config.pbufWindow ≤ offset then s.hostWritePbuf width (offset - Config.pbufWindow) v
  else (Reg.ofOffset offset).elim s (s.writeReg v)

/-- A host read: it changes nothing of the block (10_state.md R24, 20_memory.md R71); the value goes to the host (log 9). -/
def hostRead (width offset : Nat) (s : State) : Host.Outcome State Fault Refusal :=
  match s.refusal? width offset with
  | some r => .refused r
  | none => .next { s with busData := some (s.hostReadValue width offset) }

/-- A host write. -/
def hostWrite (width offset : Nat) (v : Word) (s : State) : Host.Outcome State Fault Refusal :=
  match s.refusal? width offset with
  | some r => .refused r
  | none => .next (s.hostWriteEffect width offset v)

end Sys2Proof.Machine
end

