-- ==== Sys2Proof/Machine/Engine.lean ====
section
/-! DEFINITION. The engine's steps (60_exceptions.md R208, 70_reset_and_hazards.md R252) and the steps of both agents. -/

namespace Sys2Proof.Machine

/-- The completion of the command in flight: the command `decode(L_CMD)`, or IllegalCommand (60_exceptions.md R204, R208;
30_encoding.md R95, R96). -/
def completeLatched (s : State) : Host.Outcome State Fault Refusal :=
  match decode s.latch.cmd with
  | .ok i => exec i s
  | .error _ => finish s (.error .illegalCommand)

/-- One step of the engine: nothing while no command is in flight or reset is asserted (log 8); else one of the CMD_LATENCY
steps of the command, the last of which is its completion (60_exceptions.md R208). -/
def engineStep (s : State) : Host.Outcome State Fault Refusal :=
  if s.resetAsserted || !s.status.busy then .next s
  else if s.engineLeft > 1 then .next { s with engineLeft := s.engineLeft - 1 }
  else completeLatched s

/-- One step of one agent (20_memory.md R78). -/
def perform (e : Event) (s : State) : Host.Outcome State Fault Refusal :=
  match e with
  | .hostRead width offset => hostRead width offset s
  | .hostWrite width offset v => hostWrite width offset v s
  | .engine => engineStep s
  | .reset asserted => .next (s.driveReset asserted)

/-- The next event of the schedule; past its end the engine steps, so that a command in flight completes
(70_reset_and_hazards.md R252's weak fairness; log 4). -/
def State.nextEvent (s : State) : Event := s.schedule.headD .engine

/-- The state with its next event taken off the schedule. -/
def State.popEvent (s : State) : State := { s with schedule := s.schedule.tail }

end Sys2Proof.Machine
end

