-- ==== Sys2Proof/Machine/Step.lean ====
section
/-! DEFINITION. One step of the machine, and how the host of this package places a command. -/

namespace Sys2Proof.Machine

/-- One step: the agent that moves next takes its step (20_memory.md R78, log 4). -/
def step (s : State) : Host.Outcome State Fault Refusal := perform s.nextEvent s.popEvent

/-- The state in which the very next step completes the command word of the `nbits` low bits of `w` (log 10). -/
def State.withFetchWord (s : State) (nbits w : Nat) : State := s.arm (BitVec.ofNat 32 (w % 2 ^ nbits))

end Sys2Proof.Machine
end

