-- ==== Sys2Proof/Machine/Platform.lean ====
section
/-! DEFINITION. Several blocks on one platform (20_memory.md R84, 60_exceptions.md R221): each with its own window, registers
and PBUF. The open parameters UDPCK_BASE and N_INSTANCES (00_scope.md R8) are the platform's data (log 11). -/

namespace Sys2Proof.Machine

/-- One block of the platform: its state, and the number of its window in the host's address space. -/
structure Block where
  slot  : Nat
  state : State
deriving DecidableEq, Repr

/-- The block of a window right after reset. It takes its window's number, so that blocks in different windows have unrelated
unknown PBUF bytes (20_memory.md R84, 70_reset_and_hazards.md R231; logs 1, 11). -/
def Block.reset (slot : Nat) : Block := ⟨slot, { State.reset with pbufBlock := slot }⟩

/-- `UDPCK_BASE` of a block, "aligned to 0x20000" (00_scope.md R8, 20_memory.md R63). -/
def Block.base (b : Block) : Nat := b.slot * Config.windowBytes

/-- The window offset of a host address, when it falls into the block's window (20_memory.md R63). -/
def Block.offset? (b : Block) (address : Nat) : Option Nat :=
  if b.base ≤ address ∧ address < b.base + Config.windowBytes then some (address - b.base) else none

/-- The platform's blocks; their number is `N_INSTANCES` (00_scope.md R8). -/
abbrev Platform := List Block

/-- A platform right after reset, with a block in each of these windows. -/
def Platform.reset (slots : List Nat) : Platform := slots.map Block.reset

/-- A step that changes one block of a platform. -/
def Platform.onBlock (p : Platform) (k : Nat) (f : State → Host.Outcome State Fault Refusal) :
    Host.Outcome Platform Fault Refusal :=
  match p[k]? with
  | none => .next p
  | some b =>
    match f b.state with
    | .next s => .next (p.set k { b with state := s })
    | .fault r => .fault r
    | .refused r => .refused r

/-- Block k takes its next step; a platform without a block k does not change. -/
def Platform.stepBlock (p : Platform) (k : Nat) : Host.Outcome Platform Fault Refusal := p.onBlock k step

/-- The block a host address belongs to, and the offset in its window: the first that covers it (log 11). -/
def Platform.route : Platform → Nat → Option (Nat × Nat)
  | [], _ => none
  | b :: p, address =>
    match b.offset? address with
    | some o => some (0, o)
    | none => (Platform.route p address).map fun r => (r.1 + 1, r.2)

/-- A host read of `width` bits at a host address: a step of the block that owns it; no block owns it: refused. -/
def Platform.hostRead (p : Platform) (width address : Nat) : Host.Outcome Platform Fault Refusal :=
  match p.route address with
  | some (k, o) => p.onBlock k (perform (.hostRead width o))
  | none => .refused .outsideWindow

/-- A host write of `width` bits of v at a host address. -/
def Platform.hostWrite (p : Platform) (width address : Nat) (v : Word) : Host.Outcome Platform Fault Refusal :=
  match p.route address with
  | some (k, o) => p.onBlock k (perform (.hostWrite width o v))
  | none => .refused .outsideWindow

/-- The interrupt outputs of the blocks (60_exceptions.md R212); where they go is the platform's (R213). -/
def Platform.irqs (p : Platform) : List Bool := p.map fun b => b.state.irq

end Sys2Proof.Machine
end

