-- ==== Sys2Proof/Machine/Script.lean ====
section
/-! DEFINITION. Host scripts (30_encoding.md R99): their lines, the host steps the lines expand to, and a run of a script
against the block, with the engine and the reset input moving between the host's steps (20_memory.md R78, log 14). -/

namespace Sys2Proof.Machine

/-- A line of a host script (30_encoding.md R99). A reading line carries the value it states after `->`; an ISSUE and a RUN
carry the word of their command (R98). -/
inductive ScriptLine where
  | W (r : Reg) (v : Word)
  | R (r : Reg) (v : Word)
  | SB (k : Nat) (b : Byte)
  | SH (k : Nat) (h : Half)
  | SW (k : Nat) (w : Word)
  | LB (k : Nat) (b : Byte)
  | LH (k : Nat) (h : Half)
  | LW (k : Nat) (w : Word)
  | SBYTES (k : Nat) (bs : List Byte)
  | ISSUE (w : Word)
  | WAIT
  | RUN (w : Word)
deriving DecidableEq, Repr

/-- What a script's lines expand to: an access, or the polling loop that waits for the command in flight. -/
inductive ScriptOp where
  /-- a write of the low `width` bits of `value` -/
  | write (width offset : Nat) (value : Word)
  /-- a read, and the value the script states for it -/
  | read (width offset : Nat) (stated : Word)
  /-- "loop: R STATUS -> s; if s[0] = 1 go to loop" -/
  | poll
deriving DecidableEq, Repr

/-- `SB k, b`: an 8-bit write to PBUF offset k (30_encoding.md R99). -/
def storeByte (k : Nat) (b : Byte) : ScriptOp := .write 8 (Config.pbufWindow + k) (b.setWidth 32)

/-- `SBYTES k, b0 b1 ...`: `SB k, b0`; `SB k+1, b1`; ... (30_encoding.md R99). -/
def storeBytes : Nat → List Byte → List ScriptOp
  | _, [] => []
  | k, b :: bs => storeByte k b :: storeBytes (k + 1) bs

/-- `ISSUE <command>`: `W CMD, <word of rule R98>` (30_encoding.md R99). -/
def issue (w : Word) : ScriptOp := .write 32 Reg.cmd.offset w

/-- What a line expands to (30_encoding.md R99). -/
def ScriptLine.ops : ScriptLine → List ScriptOp
  | .W r v => [.write 32 r.offset v]
  | .R r v => [.read 32 r.offset v]
  | .SB k b => [storeByte k b]
  | .SH k h => [.write 16 (Config.pbufWindow + k) (h.setWidth 32)]
  | .SW k w => [.write 32 (Config.pbufWindow + k) w]
  | .LB k b => [.read 8 (Config.pbufWindow + k) (b.setWidth 32)]
  | .LH k h => [.read 16 (Config.pbufWindow + k) (h.setWidth 32)]
  | .LW k w => [.read 32 (Config.pbufWindow + k) w]
  | .SBYTES k bs => storeBytes k bs
  | .ISSUE w => [issue w]
  | .WAIT => [.poll]
  | .RUN w => [issue w, .poll]

/-- What a script expands to. -/
def scriptOps (script : List ScriptLine) : List ScriptOp := script.flatMap ScriptLine.ops

/-- The host step of an operation; a pass of the polling loop is one read of STATUS. -/
def ScriptOp.event : ScriptOp → Event
  | .write width offset v => .hostWrite width offset v
  | .read width offset _ => .hostRead width offset
  | .poll => .hostRead 32 Reg.status.offset

/-- "if s[0] = 1 go to loop": whether the host, having received s, takes the operation again. -/
def ScriptOp.again (op : ScriptOp) (received : Option Word) : Bool :=
  match op with
  | .poll => (received.getD 0#32).getLsbD 0
  | .write .. | .read .. => false

/-- Whether the host received the value the script states, if the operation states one. -/
def ScriptOp.asStated (op : ScriptOp) (received : Option Word) : Bool :=
  match op with
  | .read _ _ stated => received == some stated
  | .write .. | .poll => true

/-- A host in its script, and the block it drives. -/
structure ScriptRun where
  /-- what the host has still to do, in order -/
  todo     : List ScriptOp
  /-- every read so far returned the value the script states -/
  asStated : Bool
  /-- the block -/
  block    : State
deriving DecidableEq, Repr

/-- Who moves between one state of a run and the next (20_memory.md R78). -/
inductive Turn where
  /-- the host takes the next step of its script -/
  | host
  /-- the engine takes a step -/
  | engine
  /-- the platform drives the reset input -/
  | reset (asserted : Bool)
deriving DecidableEq, Repr

/-- A script right before its first line. -/
def ScriptRun.start (script : List ScriptLine) (s : State) : ScriptRun := ⟨scriptOps script, true, s⟩

/-- A step of the block inside a run: what it leaves of the script is `next`'s to say. -/
def ScriptRun.onBlock (r : ScriptRun) (e : Event) (next : State → ScriptRun) : Host.Outcome ScriptRun Fault Refusal :=
  match perform e r.block with
  | .next t => .next (next t)
  | .fault f => .fault f
  | .refused f => .refused f

/-- The host's step: the access of its next operation, taken again while the polling loop goes round. A host whose script is
done makes no access. -/
def ScriptRun.hostTurn (r : ScriptRun) : Host.Outcome ScriptRun Fault Refusal :=
  match r.todo with
  | [] => .next r
  | op :: rest => r.onBlock op.event fun t =>
      ⟨if op.again t.busData then op :: rest else rest, r.asStated && op.asStated t.busData, t⟩

/-- One step of a run. -/
def ScriptRun.turn (r : ScriptRun) : Turn → Host.Outcome ScriptRun Fault Refusal
  | .host => r.hostTurn
  | .engine => r.onBlock .engine fun t => { r with block := t }
  | .reset asserted => r.onBlock (.reset asserted) fun t => { r with block := t }

/-- A run over a list of turns; it stops at a refused access. -/
def ScriptRun.run : List Turn → ScriptRun → Host.Outcome ScriptRun Fault Refusal
  | [], r => .next r
  | turn :: turns, r =>
    match r.turn turn with
    | .next r' => ScriptRun.run turns r'
    | .fault f => .fault f
    | .refused f => .refused f

/-- The event a turn puts on the block, if any. -/
def ScriptRun.event? (r : ScriptRun) : Turn → Option Event
  | .host => r.todo.head?.map ScriptOp.event
  | .engine => some .engine
  | .reset asserted => some (.reset asserted)

/-- The events of a run over a list of turns, as a schedule of the block (log 4). -/
def ScriptRun.events : List Turn → ScriptRun → List Event
  | [], _ => []
  | turn :: turns, r =>
    (r.event? turn).toList ++
      match r.turn turn with
      | .next r' => ScriptRun.events turns r'
      | .fault _ | .refused _ => []

end Sys2Proof.Machine
end

