-- ==== Sys2Proof/Safety.lean ====
section
/-! DEFINITION. What counts as a safe run, and the terms claims use: the invariant of the block, the host's duties
(70_reset_and_hazards.md R241, R242), a command run from its acceptance to its completion, and the ranges of PBUF a command
may read and write (20_memory.md R61). -/

namespace Sys2Proof.Machine

/-- What holds of a block in every state a run reaches. -/
structure State.Inv (s : State) : Prop where
  /-- PBUF keeps its canonical form (log 2). -/
  pbufCanonical : s.pbuf.wf = true
  /-- "While PKT_VALID = 1, `8 <= H_LEN`" (44_packet.md R186, 10_state.md R37). -/
  packetLength : s.status.pktValid = true → 8 ≤ s.hdr.len.toNat
  /-- Codes 8 to 15 are never produced (60_exceptions.md R200, 93_implementation_defined.md U5). -/
  errCodeKnown : s.status.errCode.toNat ≤ 7
  /-- DONE is 0 from acceptance to completion (10_state.md R42). -/
  doneAfterBusy : s.status.busy = true → s.status.done = false
  /-- The command in flight is the one CMD shows (10_state.md R44, 60_exceptions.md R207). -/
  latchedCmd : s.status.busy = true → s.latch.cmd = s.cmd
  /-- A command in flight has at least one engine step left (00_scope.md R8: CMD_LATENCY is at least 1). -/
  stepsLeft : s.status.busy = true ↔ 1 ≤ s.engineLeft
  /-- While reset is asserted no command is in flight and the interrupt is masked (70_reset_and_hazards.md R230, R232). -/
  heldInReset : s.resetAsserted = true → s.status.busy = false ∧ s.ctrlIe = false ∧ s.status.done = false

/-- An event that keeps the host's duties: no CMD write and no PBUF write while BUSY = 1 (70_reset_and_hazards.md R241,
R242). -/
def Event.keepsDuties (s : State) : Event → Bool
  | .hostWrite _ offset _ => !(s.status.busy && (decide (Config.pbufWindow ≤ offset) || offset == Reg.cmd.offset))
  | .hostRead .. | .engine | .reset _ => true

/-- An event of a run in which the host makes only legal accesses and reset stays released. -/
def Event.ordinary : Event → Bool
  | .hostRead width offset | .hostWrite width offset _ => decide (offset < Config.windowBytes) && legalAccess width offset
  | .engine => true
  | .reset _ => false

/-- The engine steps among the events of a list. -/
def engineSteps (es : List Event) : Nat := es.count .engine

/-- The state after a completion without error (60_exceptions.md R208): the completion fields and nothing else. That the latch
keeps its values is the model's choice (log 3). -/
def State.completedOk (s : State) : State :=
  { s with status := { s.status with errCode := 0#4, busy := false, done := true }, engineLeft := 0 }

/-- The state after a completion with an error's code (60_exceptions.md R205, R208): the completion fields and nothing
else. That the latch keeps its values is the model's choice (log 3). -/
def State.completedErr (s : State) (code : BitVec 4) : State :=
  { s with status := { s.status with errCode := code, anyErr := true, busy := false, done := true }, engineLeft := 0 }

/-- A command accepted in s and completed, with no step of the host between (60_exceptions.md R207, R208). -/
def State.runCommand (s : State) (i : Instr) : Host.Outcome State Fault Refusal := completeLatched (s.accept (encode i))

/-- The offsets of PBUF a command reads: the column "reads" of 20_memory.md R61. -/
def State.reads (s : State) (i : Instr) (a : Nat) : Bool :=
  match i with
  | .hdrConstruct | .hdrSetCsum _ | .hdrEncode | .pktEncode | .pshEncode _ => false
  | .hdrDecode | .pktDecode => decide (a < 8)
  | .csumBuf => decide (s.latch.args.addr.toNat ≤ a ∧ a < s.latch.args.addr.toNat + s.latch.args.len.toNat)
  | .pktConstruct => decide (8 ≤ a ∧ a < 8 + s.latch.args.len.toNat)
  | .pktCsum => decide (8 ≤ a ∧ a < s.hdr.len.toNat)

/-- The offsets of PBUF a command writes: the column "writes" of 20_memory.md R61. -/
def State.writes (s : State) (i : Instr) (a : Nat) : Bool :=
  match i with
  | .hdrEncode | .pktEncode => decide (a < 8)
  | .pshEncode _ => decide (s.latch.args.addr.toNat ≤ a ∧ a < s.latch.args.addr.toNat + 12)
  | .hdrConstruct | .hdrSetCsum _ | .hdrDecode | .pktDecode | .csumBuf | .pktConstruct | .pktCsum => false

/-- The codes a command can complete with (60_exceptions.md R201). -/
def commandCodes : Instr → List (BitVec 4)
  | .hdrConstruct | .pktConstruct => [0#4, 1#4]
  | .hdrSetCsum _ | .hdrEncode => [0#4]
  | .hdrDecode => [0#4, 2#4]
  | .pshEncode _ | .csumBuf => [0#4, 6#4]
  | .pktEncode | .pktCsum => [0#4, 7#4]
  | .pktDecode => [0#4, 3#4, 4#4]

/-- A state whose next step is not refused: the host makes no access the bus rejects (20_memory.md R64, R65,
70_reset_and_hazards.md R230). -/
def State.stepsSafely (s : State) : Prop := ∃ t, step s = .next t

end Sys2Proof.Machine
end

