-- ==== Sys2Proof/Certificates/Slice0/Obligations.lean ====
section
/-! DEFINITION. The statements for the provers. Each docstring names the rule of spec/ that it states. `exec i s` is the
completion of the command i; `s.latch.args` are the operands it reads (10_state.md R26). Where a statement gives the whole
state after a completion (`completedOk`, `completedErr`, `with`), that the latch keeps its values is the model's choice (log
3). -/

open Sys2Proof Sys2Proof.Machine

/-! ### Encoding (30_encoding.md) -/

/-- R96, R98: the word an encoder writes for a command decodes to that command, at every immediate. -/
def Obligations.DecodeReturnsEveryEncodedCommand : Prop :=
  ∀ i : Instr, decode (encode i) = .ok i

/-- R90, R98: a word that decodes to a command is the word of that command: no bit of a command word is ignored. -/
def Obligations.CommandWordIsTheEncodingOfItsCommand : Prop :=
  ∀ (w : Word) (i : Instr), decode w = .ok i → encode i = w

/-- R93: a word is the command of a row when `(w & mask) = match`, and the rows are disjoint. -/
def Obligations.DecodeFollowsTheOpcodeMap : Prop :=
  ∀ w : Word,
    (∀ row ∈ opcodeMap, row.accepts w = true → ∃ i, decode w = .ok i ∧ i.mnemonic = row.mnemonic) ∧
    (∀ i, decode w = .ok i → ∃ row ∈ opcodeMap, row.mnemonic = i.mnemonic ∧ row.accepts w = true) ∧
    (∀ r ∈ opcodeMap, ∀ r' ∈ opcodeMap, r.accepts w = true → r'.accepts w = true → r = r')

/-- R95: exactly these words are illegal; an illegal word is accepted while idle and completes with IllegalCommand, changing
no other state. -/
def Obligations.ExactlyTheseWordsAreIllegal : Prop :=
  ∀ w : Word,
    let op := (w.extractLsb' 0 8).toNat
    ((∃ e, decode w = .error e) ↔
      (op = 0 ∨ 0x0B ≤ op ∨ w.extractLsb' 8 8 ≠ 0#8 ∨
        (op ∈ [0x01, 0x03, 0x04, 0x06, 0x07, 0x08, 0x09, 0x0A] ∧ w.extractLsb' 16 16 ≠ 0#16))) ∧
    ((∃ e, decode w = .error e) →
      (∀ s : State, s.resetAsserted = false → s.status.busy = false →
        hostWrite 32 0x0C w s = .next (s.accept w)) ∧
      (∀ s : State, s.latch.cmd = w → completeLatched s = .next (s.completedErr 5#4)))

/-- R93, R98: the word of every row of the opcode map whose immediate must be 0, the immediate words of the test vectors, and
the commands they stand for. -/
def Obligations.SpecWordsDecodeToTheirCommands : Prop :=
  decode 0x00000001#32 = .ok .hdrConstruct ∧ decode 0x00000003#32 = .ok .hdrEncode ∧
  decode 0x00000004#32 = .ok .hdrDecode ∧ decode 0x00000006#32 = .ok .csumBuf ∧
  decode 0x00000007#32 = .ok .pktConstruct ∧ decode 0x00000008#32 = .ok .pktEncode ∧
  decode 0x00000009#32 = .ok .pktDecode ∧ decode 0x0000000A#32 = .ok .pktCsum ∧
  decode 0x1CF00002#32 = .ok (.hdrSetCsum 0x1CF0#16) ∧ decode 0x00000002#32 = .ok (.hdrSetCsum 0#16) ∧
  decode 0xFFFF0002#32 = .ok (.hdrSetCsum 0xFFFF#16) ∧ decode 0x12340002#32 = .ok (.hdrSetCsum 0x1234#16) ∧
  decode 0x000C0005#32 = .ok (.pshEncode 12#16) ∧ decode 0x000D0005#32 = .ok (.pshEncode 13#16) ∧
  decode 0x00000005#32 = .ok (.pshEncode 0#16) ∧ decode 0x00FF0005#32 = .ok (.pshEncode 255#16)

/-- R98: an assembler line gives a word exactly when its mnemonic takes the operand it has and the operand lies in 0 to
0xFFFF; the word is `{IMM16, 0x00, OP}`. -/
def Obligations.AssemblerAcceptsExactlyTheSyntax : Prop :=
  ∀ m : Mnemonic,
    let takes := m = .HDR_SET_CSUM ∨ m = .PSH_ENCODE
    (∀ n : Nat, ((AsmLine.mk m (some n)).assemble.isSome ↔ takes ∧ n ≤ 0xFFFF)) ∧
    (¬ takes → (AsmLine.mk m none).assemble.isSome) ∧
    (∀ (o : Option Nat) (w : Word), (AsmLine.mk m o).assemble = some w →
      w.toNat = o.getD 0 * 65536 + m.opcode.toNat ∧ ∃ i, decode w = .ok i ∧ i.mnemonic = m ∧ i.imm16.toNat = o.getD 0)

/-! ### Steps (20_memory.md R78, 60_exceptions.md R208) -/

/-- R208: when the engine moves and the command in flight has one engine step left, the step is the meaning of the decoded
command, on the state without the engine's turn on the schedule. The schedule and the count of engine steps left are the
model's (logs 4, 5). -/
def Obligations.StepRunsTheDecodedCommand : Prop :=
  ∀ (s : State) (i : Instr), s.nextEvent = .engine → s.resetAsserted = false → s.status.busy = true →
    s.engineLeft ≤ 1 → decode s.latch.cmd = .ok i →
    step s = exec i { s with schedule := s.schedule.tail }

/-- The model's way to place a command (log 10): after it the very next step runs exactly the command's meaning. -/
def Obligations.PlacedCommandRunsNext : Prop :=
  ∀ (s : State) (i : Instr),
    step (s.withFetchWord 32 (encode i).toNat) =
      exec i { s with
        cmd := encode i
        latch := ⟨encode i, s.args⟩
        status := { s.status with busy := true, done := false }
        engineLeft := 1
        resetAsserted := false }

/-- R208, R252: until a command's engine steps are used up, whatever legal accesses the host makes between them, BUSY stays
1 and the latch, the header register, the results, PBUF, ERR, ERRCODE and PKT_VALID keep their values; the last of its
engine steps completes it. The number of engine steps left and the schedule are the model's fields (logs 4, 5). -/
def Obligations.CommandCompletesAtItsLastEngineStep : Prop :=
  ∀ (s : State) (k : Nat), s.status.busy = true → s.resetAsserted = false → s.schedule.all Event.ordinary = true →
    k ≤ s.schedule.length → engineSteps (s.schedule.take k) < s.engineLeft →
    ∃ u, Host.Core.run core k s = .next u ∧ u.status.busy = true ∧ u.latch = s.latch ∧ u.hdr = s.hdr ∧
      u.csumOut = s.csumOut ∧ u.xlen = s.xlen ∧ u.pbuf = s.pbuf ∧ u.pbufEpoch = s.pbufEpoch ∧ u.pbufBlock = s.pbufBlock ∧
      u.status.errCode = s.status.errCode ∧ u.status.pktValid = s.status.pktValid ∧
      (s.schedule[k]? = some .engine → engineSteps (s.schedule.take k) + 1 = s.engineLeft →
        ∃ t, Host.Core.run core (k + 1) s = .next t ∧ completeLatched u.popEvent = .next t ∧
          t.status.busy = false ∧ t.status.done = true)

/-- R208: every command completes from every state. BUSY ends 0 and DONE 1, ANYERR gathers the error, and a command leaves
the operand registers, CMD, CTRL.IE, OVR and everything outside the block alone. The spec leaves open what the latch holds
after a completion: that it keeps its values is the model's choice (log 3), as are the model's own fields (logs 1, 4, 5, 9,
11). -/
def Obligations.EveryCommandCompletes : Prop :=
  ∀ (i : Instr) (s : State), ∃ t, exec i s = .next t ∧
    t.status.busy = false ∧ t.status.done = true ∧ t.status.ovr = s.status.ovr ∧
    t.status.anyErr = (s.status.anyErr || t.status.errCode != 0#4) ∧
    t.args = s.args ∧ t.cmd = s.cmd ∧ t.latch = s.latch ∧ t.ctrlIe = s.ctrlIe ∧ t.engineLeft = 0 ∧
    t.pbufEpoch = s.pbufEpoch ∧ t.pbufBlock = s.pbufBlock ∧ t.resetAsserted = s.resetAsserted ∧
    t.cmdLatencies = s.cmdLatencies ∧ t.schedule = s.schedule ∧ t.busData = s.busData

/-! ### Host accesses (10_state.md, 20_memory.md) -/

/-- R44, R207: a CMD write while BUSY = 0 is accepted. CMD and the latch take the word, the latch takes the operands, BUSY
is set and DONE cleared. How many engine steps follow is the model's plan (log 5), at least 1. -/
def Obligations.CmdWriteWhileIdleIsAccepted : Prop :=
  ∀ (s : State) (w : Word), s.resetAsserted = false → s.status.busy = false →
    ∃ n, 1 ≤ n ∧ hostWrite 32 0x0C w s = .next
      { s with
        cmd := w
        latch := ⟨w, s.args⟩
        status := { s.status with busy := true, done := false }
        engineLeft := n
        cmdLatencies := s.cmdLatencies.tail }

/-- R70: while BUSY = 1 a legal PBUF write is ignored and sets OVR, and a legal PBUF read returns 0; a CMD write is refused
in the same way (R44); every other register is read and written as it is while BUSY = 0. -/
def Obligations.BusyLocksPbufAndCmd : Prop :=
  ∀ (s : State) (v : Word), s.resetAsserted = false → s.status.busy = true →
    (∀ width offset, 0x10000 ≤ offset → offset < 0x20000 → legalAccess width offset = true →
      hostWrite width offset v s = .next { s with status := { s.status with ovr := true } } ∧
      hostRead width offset s = .next { s with busData := some 0#32 }) ∧
    hostWrite 32 0x0C v s = .next { s with status := { s.status with ovr := true } } ∧
    (∀ r : Reg, hostRead 32 r.offset s = .next { s with busData := some (s.readReg r) } ∧
      (r ≠ .cmd → ∃ t, hostWrite 32 r.offset v { s with status := { s.status with busy := false } } = .next t ∧
        hostWrite 32 r.offset v s = .next { t with status := { t.status with busy := true } }))

/-- R64, R65: the legal accesses, and the refusal of every other one; a refused access gives no next state. -/
def Obligations.OnlyLegalAccessesArePerformed : Prop :=
  ∀ (s : State) (width offset : Nat) (v : Word), s.resetAsserted = false → offset < 0x20000 →
    let legal := (offset < 0x10000 ∧ width = 32 ∧ offset % 4 = 0) ∨
      (0x10000 ≤ offset ∧ (width = 8 ∨ (width = 16 ∧ offset % 2 = 0) ∨ (width = 32 ∧ offset % 4 = 0)))
    (legal → (∃ t, hostRead width offset s = .next t) ∧ ∃ t, hostWrite width offset v s = .next t) ∧
    (¬ legal → hostRead width offset s = .refused .busError ∧ hostWrite width offset v s = .refused .busError)

/-- R71, R24: a read has no side effect: only what the host received changes (the model's field, log 9). -/
def Obligations.ReadsHaveNoSideEffect : Prop :=
  ∀ (s t : State) (width offset : Nat), hostRead width offset s = .next t →
    { t with busData := s.busData } = s

/-- R23, R31, R40, R41, R45, R46: what a 32-bit read of each offset of the register window and the reserved range
returns. -/
def Obligations.RegisterMapReads : Prop :=
  ∀ (s : State) (offset : Nat), s.resetAsserted = false → offset < 0x10000 → offset % 4 = 0 →
    ∃ v : Word, hostRead 32 offset s = .next { s with busData := some v } ∧
      (offset = 0x00 → v = 0x55445031#32) ∧
      (offset = 0x04 → v.toNat = s.ctrlIe.toNat) ∧
      (offset = 0x0C → v = s.cmd) ∧
      (offset = 0x10 → v = s.args.srcIp) ∧ (offset = 0x14 → v = s.args.dstIp) ∧ (offset = 0x18 → v = s.args.ports) ∧
      (offset = 0x1C → v = s.args.len) ∧ (offset = 0x20 → v = s.args.addr) ∧
      (offset = 0x24 → v.toNat = s.hdr.sport.toNat * 65536 + s.hdr.dport.toNat) ∧
      (offset = 0x28 → v.toNat = s.hdr.len.toNat * 65536 + s.hdr.csum.toNat) ∧
      (offset = 0x2C → v.toNat = s.csumOut.toNat) ∧ (offset = 0x30 → v.toNat = s.xlen.toNat) ∧
      (0x34 ≤ offset → v = 0#32)

/-- R42, R43: the bits of a STATUS read, and write-1-to-clear: DONE, ANYERR and OVR are cleared by a 1 and kept by a 0,
every other bit is ignored. -/
def Obligations.StatusReadsAndClears : Prop :=
  ∀ (s : State) (v : Word), s.resetAsserted = false →
    (∃ r : Word, hostRead 32 0x08 s = .next { s with busData := some r } ∧
      r.getLsbD 0 = s.status.busy ∧ r.getLsbD 1 = s.status.done ∧
      (r.getLsbD 2 = true ↔ s.status.errCode ≠ 0#4) ∧ r.getLsbD 3 = s.status.pktValid ∧
      r.getLsbD 4 = s.status.anyErr ∧ r.getLsbD 5 = s.status.ovr ∧ r.extractLsb' 6 2 = 0#2 ∧
      r.extractLsb' 8 4 = s.status.errCode ∧ r.extractLsb' 12 20 = 0#20) ∧
    hostWrite 32 0x08 v s = .next { s with status := { s.status with
      done := s.status.done && !v.getLsbD 1
      anyErr := s.status.anyErr && !v.getLsbD 4
      ovr := s.status.ovr && !v.getLsbD 5 } }

/-- R41: a CTRL write sets CTRL.IE to bit 0 of the value, ignores bits 31:1 and changes nothing else; a read returns IE in bit
0 and 0 in bits 31:1; IE is 0 at reset; while it is 1 the interrupt output is enabled, and shows DONE (R212), and while it is
0 the output is 0. -/
def Obligations.CtrlHoldsTheInterruptEnable : Prop :=
  (∀ (s : State) (v : Word), s.resetAsserted = false →
    hostWrite 32 0x04 v s = .next { s with ctrlIe := v.getLsbD 0 } ∧
    ∃ r : Word, hostRead 32 0x04 s = .next { s with busData := some r } ∧
      r.getLsbD 0 = s.ctrlIe ∧ r.extractLsb' 1 31 = 0#31) ∧
  State.reset.ctrlIe = false ∧
  ∀ s : State, (s.ctrlIe = true → s.irq = s.status.done) ∧ (s.ctrlIe = false → s.irq = false)

/-- R25: an operand register takes all 32 bits of a write, BUSY or not, and a read returns the last value written; the write
changes nothing else. -/
def Obligations.OperandRegistersHoldWhatIsWritten : Prop :=
  ∀ (s : State) (v : Word), s.resetAsserted = false →
    (∀ r ∈ [Reg.argSrcIp, .argDstIp, .argPorts, .argLen, .argAddr], ∃ t, hostWrite 32 r.offset v s = .next t ∧
      hostRead 32 r.offset t = .next { t with busData := some v } ∧
      { t with args := s.args } = s ∧ ∀ r' : Reg, r' ≠ r → t.readReg r' = s.readReg r') ∧
    (∀ r ∈ [Reg.argSrcIp, .argDstIp, .argPorts, .argLen, .argAddr], State.reset.readReg r = 0#32)

/-- R24: a write to a read-only register or a reserved offset is ignored. -/
def Obligations.ReadOnlyAndReservedIgnoreWrites : Prop :=
  ∀ (s : State) (v : Word) (offset : Nat), s.resetAsserted = false → offset < 0x10000 → offset % 4 = 0 →
    offset ∈ [0x00, 0x24, 0x28, 0x2C, 0x30] ∨ 0x34 ≤ offset →
    hostWrite 32 offset v s = .next s

/-- R67: the host's accesses to PBUF while BUSY = 0: what an 8-, a 16- and a 32-bit read return and what a write of each width
stores and leaves alone, the wider ones in big-endian lanes; and, BUSY or not, that a 32-bit read of PBUF offset 0 after the
completion of HDR_ENCODE equals HDR_PORTS. The zero-extension of a narrow read and the unused high bits of a narrow write are
the model's (log 9). -/
def Obligations.PbufLanesAreBigEndian : Prop :=
  (∀ (s : State) (k : Nat), s.resetAsserted = false → s.status.busy = false →
    (k < 65536 → ∃ v : Word, hostRead 8 (0x10000 + k) s = .next { s with busData := some v } ∧
      v.toNat = (s.readByte k).toNat) ∧
    (k < 65536 → ∀ v : Word, ∃ m, hostWrite 8 (0x10000 + k) v s = .next { s with pbuf := m } ∧
      State.readByte { s with pbuf := m } k = v.extractLsb' 0 8 ∧
      ∀ a, a ≠ k → State.readByte { s with pbuf := m } a = s.readByte a) ∧
    (k % 2 = 0 → k < 65536 → ∃ v : Word, hostRead 16 (0x10000 + k) s = .next { s with busData := some v } ∧
      v.toNat = (s.readByte k).toNat * 256 + (s.readByte (k + 1)).toNat) ∧
    (k % 4 = 0 → k < 65536 → ∃ v : Word, hostRead 32 (0x10000 + k) s = .next { s with busData := some v } ∧
      v.toNat = (s.readByte k).toNat * 16777216 + (s.readByte (k + 1)).toNat * 65536 +
        (s.readByte (k + 2)).toNat * 256 + (s.readByte (k + 3)).toNat) ∧
    (k % 2 = 0 → k < 65536 → ∀ v : Word, ∃ m, hostWrite 16 (0x10000 + k) v s = .next { s with pbuf := m } ∧
      State.memRead { s with pbuf := m } k 2 = [v.extractLsb' 8 8, v.extractLsb' 0 8] ∧
      ∀ a, (a < k ∨ k + 2 ≤ a) → State.readByte { s with pbuf := m } a = s.readByte a) ∧
    (k % 4 = 0 → k < 65536 → ∀ v : Word, ∃ m, hostWrite 32 (0x10000 + k) v s = .next { s with pbuf := m } ∧
      State.memRead { s with pbuf := m } k 4 =
        [v.extractLsb' 24 8, v.extractLsb' 16 8, v.extractLsb' 8 8, v.extractLsb' 0 8] ∧
      ∀ a, (a < k ∨ k + 4 ≤ a) → State.readByte { s with pbuf := m } a = s.readByte a)) ∧
  (∀ s : State, s.resetAsserted = false →
    ∃ t u v, exec .hdrEncode s = .next t ∧ hostRead 32 0x10000 t = .next { t with busData := some v } ∧
      hostRead 32 0x24 s = .next u ∧ u.busData = some v)

/-- R69: PBUF bytes change only by host writes and by command completion (or by reset, R231, which makes them unknown). -/
def Obligations.PbufChangesOnlyByWritesAndCompletions : Prop :=
  ∀ (s t : State) (a : Nat), step s = .next t → t.readByte a ≠ s.readByte a →
    (∃ width offset v, s.nextEvent = .hostWrite width offset v ∧ s.status.busy = false ∧
      offset ≤ 0x10000 + a ∧ 0x10000 + a < offset + width / 8) ∨
    (s.nextEvent = .engine ∧ s.status.busy = true ∧ s.engineLeft ≤ 1 ∧
      ∃ i, decode s.latch.cmd = .ok i ∧ s.writes i a = true) ∨
    ∃ b, s.nextEvent = .reset b

/-- R249, R241: OVR is set only by a CMD or PBUF write while BUSY = 1, which changes nothing else, and stays 1 until the host
writes 1 to it or the block is reset. -/
def Obligations.OverrunRecordsRefusedWrites : Prop :=
  ∀ s t : State, step s = .next t →
    (s.status.ovr = false → t.status.ovr = true →
      s.nextEvent.keepsDuties s = false ∧
      t = { s with status := { s.status with ovr := true }, schedule := s.schedule.tail }) ∧
    (s.status.ovr = true → t.status.ovr = false →
      (∃ v, s.nextEvent = .hostWrite 32 0x08 v ∧ v.getLsbD 5 = true) ∨ ∃ b, s.nextEvent = .reset b)

/-! ### Reset and interrupt -/

/-- R230, R232, R233: whatever the block was doing, asserting and releasing reset leaves every register at its reset value,
abandons the command in flight and masks the interrupt; while reset is asserted every host access is refused. The latch's
value is the model's (log 3) and is not stated. -/
def Obligations.ResetLeavesEveryRegisterAtItsResetValue : Prop :=
  ∀ s : State, ∃ t u, perform (.reset true) s = .next t ∧ perform (.reset false) t = .next u ∧
    (∀ width offset v, hostRead width offset t = .refused .accessDuringReset ∧
      hostWrite width offset v t = .refused .accessDuringReset) ∧
    t.irq = false ∧ engineStep t = .next t ∧
    u.resetAsserted = false ∧ u.status.busy = false ∧ engineStep u = .next u ∧
    u.irq = false ∧ u.pbuf = [] ∧
    (∀ r : Reg, u.readReg r = if r = .id then 0x55445031#32 else 0#32) ∧
    (∀ r : Reg, State.reset.readReg r = if r = .id then 0x55445031#32 else 0#32)

/-- R212: `IRQ = CTRL.IE & STATUS.DONE` at every moment: pending while DONE = 1, enabled and masked by CTRL.IE at once,
cleared by writing 1 to DONE, by the next acceptance, by clearing IE and by reset. A CTRL write changes IE and nothing else
(R41). That IRQ is 0 from the assertion of reset on, not only from its release, is the model's (log 6). -/
def Obligations.InterruptFollowsEnableAndDone : Prop :=
  ∀ s : State, (s.irq = true ↔ s.ctrlIe = true ∧ s.status.done = true) ∧
    (s.resetAsserted = false → ∀ v : Word, hostWrite 32 0x04 v s = .next { s with ctrlIe := v.getLsbD 0 }) ∧
    (∀ (v : Word) (t : State), hostWrite 32 0x04 v s = .next t → t.irq = (v.getLsbD 0 && s.status.done)) ∧
    (∀ (v : Word) (t : State), v.getLsbD 1 = true → hostWrite 32 0x08 v s = .next t → t.irq = false) ∧
    (∀ (v : Word) (t : State), s.status.busy = false → hostWrite 32 0x0C v s = .next t → t.irq = false) ∧
    (∀ t : State, perform (.reset true) s = .next t → t.irq = false)

/-- R210: a host write of 1 to DONE ordered before a completion is overwritten by it; ordered after, it clears DONE. -/
def Obligations.DoneClearAndCompletionInBothOrders : Prop :=
  ∀ (s : State) (i : Instr) (v : Word), s.resetAsserted = false → s.status.busy = true → v.getLsbD 1 = true →
    (∃ t u, hostWrite 32 0x08 v s = .next t ∧ exec i t = .next u ∧ u.status.done = true) ∧
    (∃ t u, exec i s = .next t ∧ hostWrite 32 0x08 v t = .next u ∧ u.status.done = false ∧ u.hdr = t.hdr ∧
      u.status.errCode = t.status.errCode)

/-! ### The header commands (41_header.md) -/

/-- R112: HDR_CONSTRUCT builds the header from the latched ports and length, with checksum 0, and clears PKT_VALID; a length
of 65528 or more is PayloadTooLarge and changes nothing else. -/
def Obligations.HdrConstructBuildsTheHeader : Prop :=
  decode 0x00000001#32 = .ok .hdrConstruct ∧ ∀ s : State,
    (8 + s.latch.args.len.toNat ≤ 65535 → ∃ len : Half, len.toNat = 8 + s.latch.args.len.toNat ∧
      exec .hdrConstruct s = .next (State.completedOk { s with
        hdr := ⟨s.latch.args.ports.extractLsb' 16 16, s.latch.args.ports.extractLsb' 0 16, len, 0#16⟩
        status := { s.status with pktValid := false } })) ∧
    (8 + s.latch.args.len.toNat > 65535 → exec .hdrConstruct s = .next (s.completedErr 1#4))

/-- R114: HDR_SET_CSUM writes H_CSUM, any value, and nothing else; it cannot fail. -/
def Obligations.HdrSetCsumWritesOnlyTheChecksum : Prop :=
  ∀ (value : Half) (s : State), decode (value ++ 0x00#8 ++ 0x02#8) = .ok (.hdrSetCsum value) ∧
    exec (.hdrSetCsum value) s = .next (State.completedOk { s with hdr := { s.hdr with csum := value } })

/-- R116: HDR_ENCODE writes the header register to `PBUF[0..8)` as 8 big-endian bytes, and no other byte; it cannot fail. -/
def Obligations.HdrEncodeWritesTheWireHeader : Prop :=
  decode 0x00000003#32 = .ok .hdrEncode ∧ ∀ s : State, ∃ m, exec .hdrEncode s = .next (State.completedOk { s with pbuf := m }) ∧
    State.memRead { s with pbuf := m } 0 8 =
      [s.hdr.sport.extractLsb' 8 8, s.hdr.sport.extractLsb' 0 8, s.hdr.dport.extractLsb' 8 8, s.hdr.dport.extractLsb' 0 8,
       s.hdr.len.extractLsb' 8 8, s.hdr.len.extractLsb' 0 8, s.hdr.csum.extractLsb' 8 8, s.hdr.csum.extractLsb' 0 8] ∧
    ∀ a, 8 ≤ a → State.readByte { s with pbuf := m } a = s.readByte a

/-- R119: HDR_DECODE reads the four big-endian fields at `PBUF[0..8)` and clears PKT_VALID; fewer than 8 bytes supplied is
TruncatedHeader and changes nothing else. -/
def Obligations.HdrDecodeReadsTheWireHeader : Prop :=
  decode 0x00000004#32 = .ok .hdrDecode ∧ ∀ s : State,
    (8 ≤ s.latch.args.len.toNat →
      exec .hdrDecode s = .next (State.completedOk { s with
        hdr := ⟨s.readByte 0 ++ s.readByte 1, s.readByte 2 ++ s.readByte 3, s.readByte 4 ++ s.readByte 5,
          s.readByte 6 ++ s.readByte 7⟩
        status := { s.status with pktValid := false } })) ∧
    (s.latch.args.len.toNat < 8 → exec .hdrDecode s = .next (s.completedErr 2#4))

/-- R111: the header codec: the 8 bytes of a header, the four fields of 8 bytes, and each function the inverse of the
other. -/
def Obligations.HeaderCodecIsABijection : Prop :=
  (∀ h : Header, encHdr h =
    [h.sport.extractLsb' 8 8, h.sport.extractLsb' 0 8, h.dport.extractLsb' 8 8, h.dport.extractLsb' 0 8,
     h.len.extractLsb' 8 8, h.len.extractLsb' 0 8, h.csum.extractLsb' 8 8, h.csum.extractLsb' 0 8]) ∧
  (∀ b0 b1 b2 b3 b4 b5 b6 b7 : Byte, decHdr [b0, b1, b2, b3, b4, b5, b6, b7] =
    ⟨b0 ++ b1, b2 ++ b3, b4 ++ b5, b6 ++ b7⟩) ∧
  (∀ h : Header, decHdr (encHdr h) = h) ∧ (∀ bs : List Byte, bs.length = 8 → encHdr (decHdr bs) = bs)

/-- R124: HDR_ENCODE then HDR_DECODE with ARG_LEN >= 8 ends with the header register it began with; HDR_DECODE then
HDR_ENCODE ends with the bytes `PBUF[0..8)` it began with. -/
def Obligations.HeaderRoundTrip : Prop :=
  (∀ (s : State) (v : Word), 8 ≤ v.toNat → ∃ t u, s.runCommand .hdrEncode = .next t ∧
    (t.writeReg v .argLen).runCommand .hdrDecode = .next u ∧ u.hdr = s.hdr) ∧
  (∀ s : State, 8 ≤ s.args.len.toNat → ∃ t u, s.runCommand .hdrDecode = .next t ∧ t.runCommand .hdrEncode = .next u ∧
    ∀ a, u.readByte a = s.readByte a)

/-! ### The pseudo-header (42_pseudo_header.md) -/

/-- R133: PSH_ENCODE writes the 12 bytes of the pseudo-header at ARG_ADDR, and no other byte; past the end of PBUF it is
BadRange and changes nothing else. -/
def Obligations.PshEncodeWritesThePseudoHeader : Prop :=
  ∀ (n : Half) (s : State), decode (n ++ 0x00#8 ++ 0x05#8) = .ok (.pshEncode n) ∧
    let src := s.latch.args.srcIp
    let dst := s.latch.args.dstIp
    let a := s.latch.args.addr.toNat
    (a + 12 ≤ 65536 → ∃ m, exec (.pshEncode n) s = .next (State.completedOk { s with pbuf := m }) ∧
      State.memRead { s with pbuf := m } a 12 =
        [src.extractLsb' 24 8, src.extractLsb' 16 8, src.extractLsb' 8 8, src.extractLsb' 0 8,
         dst.extractLsb' 24 8, dst.extractLsb' 16 8, dst.extractLsb' 8 8, dst.extractLsb' 0 8,
         0x00#8, 0x11#8, n.extractLsb' 8 8, n.extractLsb' 0 8] ∧
      ∀ k, (k < a ∨ a + 12 ≤ k) → State.readByte { s with pbuf := m } k = s.readByte k) ∧
    (a + 12 > 65536 → exec (.pshEncode n) s = .next (s.completedErr 6#4))

/-! ### The checksum (43_checksum.md) -/

/-- R147, R142, R144, R145: the checksum is the complement of the fold of the exact sum of the padded sequence's big-endian
words, with 0xFFFF in place of 0; Fold repeats `(a & 0xFFFF) + (a >> 16)` while the value is above 0xFFFF. -/
def Obligations.ChecksumIsTheFiveSteps : Prop :=
  (∀ a : Nat, (a ≤ 0xFFFF → fold a = a) ∧ (a > 0xFFFF → fold a = fold (a % 65536 + a / 65536))) ∧
  (∀ bs : List Byte,
    let padded := if bs.length % 2 = 1 then bs ++ [0#8] else bs
    let sum := ((List.range (padded.length / 2)).map fun k =>
      (padded.getD (2 * k) 0#8).toNat * 256 + (padded.getD (2 * k + 1) 0#8).toNat).sum
    (checksum bs).toNat = if fold sum = 0xFFFF then 0xFFFF else 0xFFFF - fold sum)

/-- R146: a checksum is never 0, and is 0xFFFF exactly when the fold is 0xFFFF or every byte is 0; a positive sum folds into
1 to 0xFFFF and keeps its residue modulo 0xFFFF; a packet's input is never all zero. -/
def Obligations.ChecksumIsNeverZero : Prop :=
  (∀ bs : List Byte, checksum bs ≠ 0#16 ∧
    (checksum bs = 0xFFFF#16 ↔ fold (wordSum (padEven bs)) = 0xFFFF ∨ wordSum (padEven bs) = 0) ∧
    (wordSum (padEven bs) = 0 ↔ ∀ b ∈ bs, b = 0#8)) ∧
  (∀ a : Nat, 0 < a → 1 ≤ fold a ∧ fold a ≤ 0xFFFF ∧ fold a % 0xFFFF = a % 0xFFFF) ∧
  (∀ (src dst : Word) (h : Header) (payload : List Byte), 0 < wordSum (padEven (packetInput src dst h payload)))

/-- R143: the sums the block forms fit 32 bits, so a 32-bit accumulator gives the same; for such a sum Fold makes at most two
passes. -/
def Obligations.ChecksumSumFitsThirtyTwoBits : Prop :=
  (∀ (src dst : Word) (h : Header) (payload : List Byte), payload.length ≤ 65527 →
    (packetInput src dst h payload).length ≤ 65547 ∧
    wordSum (padEven (packetInput src dst h payload)) ≤ 2147844090 ∧
    wordSum (padEven (packetInput src dst h payload)) % 2 ^ 32 = wordSum (padEven (packetInput src dst h payload))) ∧
  (∀ bs : List Byte, bs.length ≤ 65536 → wordSum (padEven bs) ≤ 2147450880) ∧
  (∀ a : Nat, a < 2 ^ 32 → foldStep (foldStep a) ≤ 0xFFFF)

/-- R148, verification: with the checksum of a packet in its own checksum field, the checksum of the same input is
0xFFFF. -/
def Obligations.StoredChecksumVerifies : Prop :=
  ∀ (src dst : Word) (h : Header) (payload : List Byte),
    checksum (psh src dst h.len ++ encHdr { h with csum := checksum (packetInput src dst h payload) } ++ payload) =
      0xFFFF#16

/-- R148, word order: swapping two whole words leaves the checksum unchanged, and moving a byte by one place can change
it. -/
def Obligations.ChecksumIgnoresWordOrder : Prop :=
  (∀ (p q r : List Byte) (a b c d : Byte), p.length % 2 = 0 → q.length % 2 = 0 →
    checksum (p ++ [a, b] ++ q ++ [c, d] ++ r) = checksum (p ++ [c, d] ++ q ++ [a, b] ++ r)) ∧
  checksum [0x01#8, 0x00#8] ≠ checksum [0x00#8, 0x01#8]

/-- R150: CSUM_BUF puts the checksum of `PBUF[ARG_ADDR..ARG_ADDR+ARG_LEN)` into CSUM_OUT; past the end of PBUF it is
BadRange and changes nothing else. -/
def Obligations.CsumBufChecksumsTheRange : Prop :=
  decode 0x00000006#32 = .ok .csumBuf ∧ ∀ s : State,
    let a := s.latch.args.addr.toNat
    let n := s.latch.args.len.toNat
    (a + n ≤ 65536 → exec .csumBuf s =
      .next (State.completedOk { s with csumOut := checksum ((List.range n).map fun k => s.readByte (a + k)) })) ∧
    (a + n > 65536 → exec .csumBuf s = .next (s.completedErr 6#4))

/-- R136: PSH_ENCODE followed by CSUM_BUF over the 12 bytes it wrote gives the checksum of the pseudo-header alone. -/
def Obligations.PshEncodeThenCsumBuf : Prop :=
  ∀ (n : Half) (s : State), s.args.addr.toNat + 12 ≤ 65536 → ∃ t u, s.runCommand (.pshEncode n) = .next t ∧
    (t.writeReg 12#32 .argLen).runCommand .csumBuf = .next u ∧
    u.csumOut = checksum (psh s.args.srcIp s.args.dstIp n) ∧ u.status.errCode = 0#4

/-- R153: when PBUF holds a pseudo-header at a and right after it a wire packet whose checksum field is the checksum of its
pseudo-header, header and payload, CSUM_BUF over the `12 + H_LEN` bytes gives 0xFFFF. -/
def Obligations.CsumBufVerifiesAReceivedPacket : Prop :=
  ∀ (s : State) (src dst : Word) (h : Header) (payload : List Byte),
    h.len.toNat = 8 + payload.length → s.args.len.toNat = 12 + h.len.toNat →
    s.args.addr.toNat + 12 + h.len.toNat ≤ 65536 → h.csum = checksum (packetInput src dst h payload) →
    s.memRead s.args.addr.toNat 12 = psh src dst h.len →
    s.memRead (s.args.addr.toNat + 12) h.len.toNat = encHdr h ++ payload →
    ∃ t, s.runCommand .csumBuf = .next t ∧ t.csumOut = 0xFFFF#16 ∧ t.status.errCode = 0#4

/-! ### The packet commands (44_packet.md) -/

/-- R161: PKT_CONSTRUCT builds the header around the payload already in PBUF, with the checksum over pseudo-header, header
with checksum 0, and payload, and sets PKT_VALID; a length of 65528 or more is PayloadTooLarge and changes nothing else. -/
def Obligations.PktConstructBuildsThePacket : Prop :=
  decode 0x00000007#32 = .ok .pktConstruct ∧ ∀ s : State,
    let n := s.latch.args.len.toNat
    let sport : Half := s.latch.args.ports.extractLsb' 16 16
    let dport : Half := s.latch.args.ports.extractLsb' 0 16
    (8 + n ≤ 65535 → ∃ len : Half, len.toNat = 8 + n ∧
      exec .pktConstruct s = .next (State.completedOk { s with
        hdr := ⟨sport, dport, len, checksum (psh s.latch.args.srcIp s.latch.args.dstIp len ++
          encHdr ⟨sport, dport, len, 0#16⟩ ++ (List.range n).map fun k => s.readByte (8 + k))⟩
        status := { s.status with pktValid := true } })) ∧
    (8 + n > 65535 → exec .pktConstruct s = .next (s.completedErr 1#4))

/-- R166: PKT_ENCODE writes the current packet's header to `PBUF[0..8)`, no other byte, and H_LEN to XLEN; with no current
packet it is NoPacket and changes nothing else. -/
def Obligations.PktEncodeWritesTheWirePacket : Prop :=
  decode 0x00000008#32 = .ok .pktEncode ∧ ∀ s : State,
    (s.status.pktValid = true → ∃ m, exec .pktEncode s = .next (State.completedOk { s with pbuf := m, xlen := s.hdr.len }) ∧
      State.memRead { s with pbuf := m } 0 8 =
        [s.hdr.sport.extractLsb' 8 8, s.hdr.sport.extractLsb' 0 8, s.hdr.dport.extractLsb' 8 8, s.hdr.dport.extractLsb' 0 8,
         s.hdr.len.extractLsb' 8 8, s.hdr.len.extractLsb' 0 8, s.hdr.csum.extractLsb' 8 8, s.hdr.csum.extractLsb' 0 8] ∧
      ∀ a, 8 ≤ a → State.readByte { s with pbuf := m } a = s.readByte a) ∧
    (s.status.pktValid = false → exec .pktEncode s = .next (s.completedErr 7#4))

/-- R170, R171: PKT_DECODE tests the byte count first, then the length field, then takes the header and sets PKT_VALID; a
failing test gives its code and changes nothing else. -/
def Obligations.PktDecodeTakesTheReceivedPacket : Prop :=
  decode 0x00000009#32 = .ok .pktDecode ∧ ∀ s : State,
    let m := s.latch.args.len.toNat
    let len : Half := s.readByte 4 ++ s.readByte 5
    (m < 8 → exec .pktDecode s = .next (s.completedErr 3#4)) ∧
    (8 ≤ m → len.toNat ≠ m → exec .pktDecode s = .next (s.completedErr 4#4)) ∧
    (8 ≤ m → len.toNat = m →
      exec .pktDecode s = .next (State.completedOk { s with
        hdr := ⟨s.readByte 0 ++ s.readByte 1, s.readByte 2 ++ s.readByte 3, len, s.readByte 6 ++ s.readByte 7⟩
        status := { s.status with pktValid := true } }))

/-- R180: PKT_CSUM recomputes the checksum of the current packet, its checksum field taken as 0, into CSUM_OUT, and leaves
the packet; with no current packet it is NoPacket and changes nothing else. -/
def Obligations.PktCsumRecomputesTheChecksum : Prop :=
  decode 0x0000000A#32 = .ok .pktCsum ∧ ∀ s : State,
    (s.status.pktValid = true → exec .pktCsum s = .next (State.completedOk { s with
      csumOut := checksum (psh s.latch.args.srcIp s.latch.args.dstIp s.hdr.len ++
        encHdr ⟨s.hdr.sport, s.hdr.dport, s.hdr.len, 0#16⟩ ++
        (List.range (s.hdr.len.toNat - 8)).map fun k => s.readByte (8 + k)) })) ∧
    (s.status.pktValid = false → exec .pktCsum s = .next (s.completedErr 7#4))

/-- R181: right after PKT_CONSTRUCT with the same operands and an unchanged payload, PKT_CSUM gives H_CSUM, whatever
HDR_SET_CSUM has stored in between. -/
def Obligations.PktCsumAfterPktConstruct : Prop :=
  ∀ (s : State) (c : Half), 8 + s.args.len.toNat ≤ 65535 → ∃ t u w, s.runCommand .pktConstruct = .next t ∧
    t.runCommand (.hdrSetCsum c) = .next u ∧ u.runCommand .pktCsum = .next w ∧
    w.csumOut = t.hdr.csum ∧ w.status.errCode = 0#4 ∧ w.hdr = { t.hdr with csum := c }

/-- R185: PKT_CONSTRUCT, then PKT_ENCODE, then PKT_DECODE with ARG_LEN = XLEN succeeds and leaves the header register and the
payload as PKT_CONSTRUCT made them. -/
def Obligations.PacketRoundTrip : Prop :=
  ∀ s : State, 8 + s.args.len.toNat ≤ 65535 → ∃ t u w, s.runCommand .pktConstruct = .next t ∧
    t.runCommand .pktEncode = .next u ∧ (u.writeReg (u.readReg .xlen) .argLen).runCommand .pktDecode = .next w ∧
    w.status.errCode = 0#4 ∧ w.status.pktValid = true ∧ w.hdr = t.hdr ∧ w.hdr.len.toNat = 8 + s.args.len.toNat ∧
    (∀ a, 8 ≤ a → w.readByte a = s.readByte a) ∧ w.memRead 0 8 = encHdr t.hdr

/-! ### Rules of the whole machine -/

/-- R201: which command can complete with which code: each code of its row in some state, and no other code; an illegal word
completes with 5. -/
def Obligations.CommandCodesAreTheTable : Prop :=
  (∀ (i : Instr) (code : BitVec 4), (∃ s t, exec i s = .next t ∧ t.status.errCode = code) ↔ code ∈ commandCodes i) ∧
  (∀ n m, commandCodes .hdrConstruct = [0#4, 1#4] ∧ commandCodes (.hdrSetCsum n) = [0#4] ∧ commandCodes .hdrEncode = [0#4] ∧
    commandCodes .hdrDecode = [0#4, 2#4] ∧ commandCodes (.pshEncode m) = [0#4, 6#4] ∧ commandCodes .csumBuf = [0#4, 6#4] ∧
    commandCodes .pktConstruct = [0#4, 1#4] ∧ commandCodes .pktEncode = [0#4, 7#4] ∧
    commandCodes .pktDecode = [0#4, 3#4, 4#4] ∧ commandCodes .pktCsum = [0#4, 7#4]) ∧
  (∀ (s : State) (e : IllegalWord), decode s.latch.cmd = .error e →
    ∃ t, completeLatched s = .next t ∧ t.status.errCode = 5#4)

/-- R205: a command that raises an error, an illegal word included, changes the completion fields of STATUS and nothing
else: the header register, PKT_VALID, PBUF, CSUM_OUT and XLEN keep their values. -/
def Obligations.FailingCommandHasNoOtherEffect : Prop :=
  ∀ s t : State, completeLatched s = .next t → t.status.errCode ≠ 0#4 →
    t = { s with
      status := { s.status with errCode := t.status.errCode, anyErr := true, busy := false, done := true }
      engineLeft := 0 }

/-- R245, R26: the running command uses the latched values: with other values in the operand registers it does the same, and
leaves those values in them. -/
def Obligations.CommandsReadTheLatchOnly : Prop :=
  ∀ (i : Instr) (s t : State) (a : Operands), exec i s = .next t →
    exec i { s with args := a } = .next { t with args := a }

/-- R61: no command reads or writes a byte of PBUF outside its range: bytes outside what it writes stay, and with other bytes
outside what it reads it does the same. -/
def Obligations.CommandsUseOnlyTheirPbufRanges : Prop :=
  ∀ (i : Instr) (s t : State), exec i s = .next t →
    (∀ a, s.writes i a = false → t.readByte a = s.readByte a) ∧
    (∀ (m : Memory) (e : Nat),
      (∀ a, s.reads i a = true → State.readByte { s with pbuf := m, pbufEpoch := e } a = s.readByte a) →
      ∃ m', exec i { s with pbuf := m, pbufEpoch := e } = .next { t with pbuf := m', pbufEpoch := e } ∧
        ∀ a, s.writes i a = true → t.status.errCode = 0#4 →
          State.readByte { t with pbuf := m', pbufEpoch := e } a = t.readByte a)

/-- R32: the host cannot write the header register; only HDR_CONSTRUCT, HDR_DECODE, PKT_CONSTRUCT and PKT_DECODE write it
whole, and HDR_SET_CSUM writes H_CSUM only. -/
def Obligations.OnlyFiveCommandsWriteTheHeader : Prop :=
  (∀ (s t : State) (width offset : Nat) (v : Word), hostWrite width offset v s = .next t → t.hdr = s.hdr) ∧
  (∀ (i : Instr) (s t : State), exec i s = .next t → t.hdr ≠ s.hdr →
    i ∈ [.hdrConstruct, .hdrDecode, .pktConstruct, .pktDecode] ∨
    ∃ c, i = .hdrSetCsum c ∧ t.hdr = { s.hdr with csum := c })

/-- R38: PKT_VALID is set by a successful PKT_CONSTRUCT or PKT_DECODE, cleared by a successful HDR_CONSTRUCT or HDR_DECODE
and by reset; every other command, every failed command and every host access leaves it. That reset clears it at its
assertion already is the model's (log 6): the spec gives the values at the release. -/
def Obligations.PktValidFollowsItsRule : Prop :=
  (∀ (i : Instr) (s t : State), exec i s = .next t → t.status.pktValid =
    if t.status.errCode ≠ 0#4 then s.status.pktValid
    else if i = .pktConstruct ∨ i = .pktDecode then true
    else if i = .hdrConstruct ∨ i = .hdrDecode then false
    else s.status.pktValid) ∧
  (∀ (s t : State) (e : Event), perform e s = .next t → e ≠ .engine →
    t.status.pktValid = s.status.pktValid ∨ (∃ b, e = .reset b) ∧ t.status.pktValid = false) ∧
  (∀ s t : State, perform (.reset true) s = .next t → t.status.pktValid = false)

/-- R45, R46: only CSUM_BUF and PKT_CSUM write CSUM_OUT, at their success, and never 0; only PKT_ENCODE writes XLEN, at its
success, with H_LEN; no host access writes either; both are 0 at reset. -/
def Obligations.ResultRegistersHaveTheirWriters : Prop :=
  (∀ (i : Instr) (s t : State), exec i s = .next t →
    (t.csumOut ≠ s.csumOut → (i = .csumBuf ∨ i = .pktCsum) ∧ t.status.errCode = 0#4) ∧
    ((i = .csumBuf ∨ i = .pktCsum) → t.status.errCode = 0#4 → t.csumOut ≠ 0#16) ∧
    (t.xlen ≠ s.xlen → i = .pktEncode ∧ t.status.errCode = 0#4) ∧
    (i = .pktEncode → t.status.errCode = 0#4 → t.xlen = s.hdr.len)) ∧
  (∀ (s t : State) (width offset : Nat) (v : Word), hostWrite width offset v s = .next t →
    t.csumOut = s.csumOut ∧ t.xlen = s.xlen) ∧
  State.reset.csumOut = 0#16 ∧ State.reset.xlen = 0#16

/-- The reset state meets the invariant of the block (`State.Inv`). PBUF's canonical form, the count of engine steps left and
what holds while reset is asserted are the model's parts of it (logs 2, 5, 6). -/
def Obligations.InvariantHoldsAtReset : Prop := State.reset.Inv

/-- Every step of either agent and of the reset input keeps the invariant: PBUF's canonical form, `8 <= H_LEN` while a packet
is valid (R186), no reserved error code (R200), DONE 0 while BUSY, the latched command the one in CMD, a step left while
BUSY, and an idle, masked block while reset is asserted. -/
def Obligations.EveryStepKeepsTheInvariant : Prop :=
  ∀ s t : State, s.Inv → step s = .next t → t.Inv

/-- A step of a run is refused only for an access the bus rejects: with a legal host access and reset released, or with the
engine or the reset input moving, the machine always goes on; no error stops the block (R206). -/
def Obligations.NoErrorStopsTheBlock : Prop :=
  ∀ s : State, (s.nextEvent = .engine ∨ (∃ b, s.nextEvent = .reset b) ∨
    (s.resetAsserted = false ∧ s.nextEvent.ordinary = true)) → s.stepsSafely

/-- R84, R63: a step of one block of a platform is the step of its own state and never changes another block. A host read or
write that is performed is performed by one block whose window holds its address, at the offset from that block's base, which
is aligned to 0x20000, and changes no other; an access whose address a window holds ends as that block's own access ends; one
that no window holds is refused. The list of blocks, the first of two windows that hold one address answering, and the number
that keeps the blocks' unknown bytes apart are the model's (log 11). -/
def Obligations.BlocksShareNoState : Prop :=
  let holds := fun (b : Block) (address : Nat) => b.base ≤ address ∧ address < b.base + 0x20000
  (∀ b : Block, b.base % 0x20000 = 0) ∧
  (∀ (p q : Platform) (k : Nat) (b : Block), p[k]? = some b → p.stepBlock k = .next q →
    (∃ s, step b.state = .next s ∧ s.pbufBlock = b.state.pbufBlock ∧ q[k]? = some { b with state := s }) ∧
    ∀ j, j ≠ k → q[j]? = p[j]?) ∧
  (∀ (p q : Platform) (width address : Nat) (v : Word), p.hostWrite width address v = .next q →
    ∃ (k : Nat) (b : Block) (s : State), p[k]? = some b ∧ holds b address ∧
      hostWrite width (address - b.base) v b.state = .next s ∧ q[k]? = some { b with state := s } ∧
      ∀ j, j ≠ k → q[j]? = p[j]?) ∧
  (∀ (p q : Platform) (width address : Nat), p.hostRead width address = .next q →
    ∃ (k : Nat) (b : Block) (s : State), p[k]? = some b ∧ holds b address ∧
      hostRead width (address - b.base) b.state = .next s ∧ q[k]? = some { b with state := s } ∧
      ∀ j, j ≠ k → q[j]? = p[j]?) ∧
  (∀ (p : Platform) (k width address : Nat) (b : Block) (v : Word), p[k]? = some b → holds b address →
    (∀ j b', j < k → p[j]? = some b' → ¬ holds b' address) →
    (∀ s, hostWrite width (address - b.base) v b.state = .next s →
      p.hostWrite width address v = .next (p.set k { b with state := s })) ∧
    (∀ r, hostWrite width (address - b.base) v b.state = .refused r → p.hostWrite width address v = .refused r) ∧
    (∀ s, hostRead width (address - b.base) b.state = .next s →
      p.hostRead width address = .next (p.set k { b with state := s })) ∧
    (∀ r, hostRead width (address - b.base) b.state = .refused r → p.hostRead width address = .refused r)) ∧
  (∀ (p : Platform) (width address : Nat) (v : Word), (∀ b ∈ p, ¬ holds b address) →
    p.hostWrite width address v = .refused .outsideWindow ∧ p.hostRead width address = .refused .outsideWindow)

/-! ### Host scripts (30_encoding.md R99) -/

/-- R99: what each line of a host script is. A line that writes or reads is that access of the block, and a reading line keeps
the run as stated exactly when the host received the value it states; SBYTES, ISSUE and RUN are their expansions, a command
standing in them as its word (R98); a WAIT reads STATUS and is taken again exactly while bit 0 of the value it received is 1.
The zero-extension of a narrow read's value is the model's (log 9); so are the record of the stated values and that the run
goes on with its next line after a read that did not return the value stated (log 14). -/
def Obligations.HostScriptLinesAreTheirHostSteps : Prop :=
  (∀ (s t : State) (more : List ScriptLine) (ok : Bool),
    let at_ := fun (line : ScriptLine) => ScriptRun.hostTurn ⟨scriptOps (line :: more), ok, s⟩
    let left := fun (ok' : Bool) => Host.Outcome.next (φ := Fault) (ρ := Refusal) (⟨scriptOps more, ok', t⟩ : ScriptRun)
    (∀ r v, hostWrite 32 r.offset v s = .next t → at_ (.W r v) = left ok) ∧
    (∀ r v, hostRead 32 r.offset s = .next t → at_ (.R r v) = left (ok && t.busData == some v)) ∧
    (∀ k b, hostWrite 8 (0x10000 + k) (b.setWidth 32) s = .next t → at_ (.SB k b) = left ok) ∧
    (∀ k h, hostWrite 16 (0x10000 + k) (h.setWidth 32) s = .next t → at_ (.SH k h) = left ok) ∧
    (∀ k w, hostWrite 32 (0x10000 + k) w s = .next t → at_ (.SW k w) = left ok) ∧
    (∀ k b, hostRead 8 (0x10000 + k) s = .next t → at_ (.LB k b) = left (ok && t.busData == some (b.setWidth 32))) ∧
    (∀ k h, hostRead 16 (0x10000 + k) s = .next t → at_ (.LH k h) = left (ok && t.busData == some (h.setWidth 32))) ∧
    (∀ k w, hostRead 32 (0x10000 + k) s = .next t → at_ (.LW k w) = left (ok && t.busData == some w))) ∧
  (∀ k b bs, scriptOps [.SBYTES k []] = [] ∧ scriptOps [.SBYTES k (b :: bs)] = scriptOps [.SB k b, .SBYTES (k + 1) bs]) ∧
  (∀ w : Word, scriptOps [.ISSUE w] = scriptOps [.W .cmd w] ∧ scriptOps [.RUN w] = scriptOps [.ISSUE w, .WAIT]) ∧
  (∀ (s : State) (more : List ScriptLine) (ok : Bool), s.resetAsserted = false →
    ∃ v : Word, hostRead 32 0x08 s = .next { s with busData := some v } ∧ v.getLsbD 0 = s.status.busy ∧
      ScriptRun.hostTurn ⟨scriptOps (.WAIT :: more), ok, s⟩ = .next
        ⟨if v.getLsbD 0 = true then scriptOps (.WAIT :: more) else scriptOps more, ok, { s with busData := some v }⟩)

/-- R99, R80, R207, R208: a RUN on an idle block, with reset released, whoever moves between its reads. It is never refused;
while it is not done the host stands in its WAIT; when it is done, the command's engine steps have been taken and the block is
as the command's completion leaves it, however many times the loop went round; and the first read after those engine steps
ends it. The list of turns is the model's (log 14), the number of engine steps its plan (log 5), what the host last received
its field (log 9). -/
def Obligations.RunWaitsForItsCommand : Prop :=
  ∀ (s : State) (w : Word) (turns : List Turn), s.resetAsserted = false → s.status.busy = false →
    (∀ b, Turn.reset b ∉ turns) →
    ∃ t u, completeLatched (s.accept w) = .next t ∧
      ScriptRun.run (.host :: turns) (.start [.RUN w] s) = .next u ∧ u.asStated = true ∧
      (u.todo = [] ∨ u.todo = scriptOps [.WAIT]) ∧
      (u.todo = [] → nextLatency s.cmdLatencies ≤ turns.count .engine ∧
        u.block = { t with busData := u.block.busData } ∧ u.block.status.busy = false ∧ u.block.status.done = true) ∧
      (∀ before after, turns = before ++ .host :: after →
        nextLatency s.cmdLatencies ≤ before.count .engine → u.todo = [])

/-- R78, R99: a run of a host script is a run of the machine: the events of its turns, put on the schedule, lead step by step
to the same block. Schedule and turns are the model's (logs 4, 14). -/
def Obligations.ScriptRunsAreMachineRuns : Prop :=
  ∀ (turns : List Turn) (r u : ScriptRun), ScriptRun.run turns r = .next u →
    Host.Core.run core (ScriptRun.events turns r).length { r.block with schedule := ScriptRun.events turns r } =
      .next { u.block with schedule := [] }
end

