-- ==== Sys2Proof/Laws/Checksum.lean ====
section
/-! SUPPORT. The checksum's arithmetic (43_checksum.md R141 to R147): sums of words, the fold, and the lengths of the byte
layouts. -/

namespace Sys2Proof.Machine

/-! ### The word sum -/

theorem half_toNat (hi lo : Byte) : (half hi lo).toNat = hi.toNat * 256 + lo.toNat := by
  rw [half, BitVec.toNat_append, Nat.shiftLeft_eq, ← Nat.shiftLeft_eq, ← Nat.shiftLeft_add_eq_or_of_lt lo.isLt,
    Nat.shiftLeft_eq]

@[simp] theorem wordSum_nil : wordSum [] = 0 := rfl

theorem wordSum_cons_cons (b c : Byte) (rest : List Byte) :
    wordSum (b :: c :: rest) = (half b c).toNat + wordSum rest := rfl

/-- A prefix of even length is summed on its own: words pair up from the first byte (43_checksum.md R152). -/
theorem wordSum_append {xs : List Byte} (h : xs.length % 2 = 0) (ys : List Byte) :
    wordSum (xs ++ ys) = wordSum xs + wordSum ys := by
  match xs, h with
  | [], _ => simp
  | [b], h => simp at h
  | b :: c :: rest, h =>
    have hr : rest.length % 2 = 0 := by
      simp only [List.length_cons] at h
      omega
    rw [List.cons_append, List.cons_append, wordSum_cons_cons, wordSum_cons_cons, wordSum_append hr ys, Nat.add_assoc]

/-- The pad byte stands inside the computation only: it adds nothing (43_checksum.md R141). -/
theorem wordSum_padEven (bs : List Byte) : wordSum (padEven bs) = wordSum bs := by
  unfold padEven
  split_ifs with h
  · match bs, h with
    | [], h => simp at h
    | [b], _ => rfl
    | b :: c :: rest, h =>
      have hr : rest.length % 2 = 1 := by
        simp only [List.length_cons] at h
        omega
      have ih := wordSum_padEven rest
      rw [padEven, if_pos hr] at ih
      rw [List.cons_append, List.cons_append, wordSum_cons_cons, wordSum_cons_cons, ih]
  · rfl

/-- The two bytes of `BE16(v)` read back as v (20_memory.md R66). -/
@[simp] theorem half_be16 (v : Half) : half (v.extractLsb' 8 8) (v.extractLsb' 0 8) = v := by
  apply BitVec.eq_of_toNat_eq
  have := v.isLt
  rw [half_toNat, BitVec.extractLsb'_toNat, BitVec.extractLsb'_toNat, Nat.shiftRight_eq_div_pow,
    Nat.shiftRight_eq_div_pow]
  omega

theorem wordSum_be16 (v : Half) : wordSum (be16 v) = v.toNat := by
  rw [be16, wordSum_cons_cons, wordSum_nil, half_be16, Nat.add_zero]

/-! ### The fold -/

theorem foldStep_eq (a : Nat) : foldStep a = a % 65536 + a / 65536 := by
  rw [foldStep, show (0xFFFF : Nat) = 2 ^ 16 - 1 from rfl, Nat.and_two_pow_sub_one_eq_mod, Nat.shiftRight_eq_div_pow]

theorem foldStep_lt {a : Nat} (h : a > 0xFFFF) : foldStep a < a := by
  rw [foldStep_eq]
  omega

theorem foldStep_mod (a : Nat) : foldStep a % 65535 = a % 65535 := by
  rw [foldStep_eq]
  omega

theorem foldStep_pos {a : Nat} (h : 0 < a) : 0 < foldStep a := by
  rw [foldStep_eq]
  omega

/-- Enough fuel is enough: the loop ends at or below 0xFFFF. -/
theorem foldLoop_le {fuel a : Nat} (h : a ≤ fuel) : foldLoop fuel a ≤ 0xFFFF := by
  induction fuel generalizing a with
  | zero => simp [foldLoop]; omega
  | succ n ih =>
    unfold foldLoop
    split_ifs with hb
    · exact ih (by have := foldStep_lt hb; omega)
    · omega

theorem foldLoop_mod (fuel a : Nat) : foldLoop fuel a % 65535 = a % 65535 := by
  induction fuel generalizing a with
  | zero => rfl
  | succ n ih =>
    unfold foldLoop
    split_ifs with hb
    · rw [ih, foldStep_mod]
    · rfl

theorem foldLoop_pos {fuel a : Nat} (h : 0 < a) : 0 < foldLoop fuel a := by
  induction fuel generalizing a with
  | zero => exact h
  | succ n ih =>
    unfold foldLoop
    split_ifs with hb
    · exact ih (foldStep_pos h)
    · exact h

/-- The number of passes allowed does not matter once it is enough. -/
theorem foldLoop_fuel {f g a : Nat} (hf : a ≤ f) (hg : a ≤ g) : foldLoop f a = foldLoop g a := by
  induction f generalizing g a with
  | zero =>
    cases g with
    | zero => rfl
    | succ g => simp [foldLoop, show ¬ a > 0xFFFF by omega]
  | succ f ih =>
    cases g with
    | zero => simp [foldLoop, show ¬ a > 0xFFFF by omega]
    | succ g =>
      unfold foldLoop
      split_ifs with hb
      · have := foldStep_lt hb
        exact ih (by omega) (by omega)
      · rfl

/-! ### Lengths of the layouts -/

@[simp] theorem be16_length (v : Half) : (be16 v).length = 2 := rfl
@[simp] theorem be32_length (v : Word) : (be32 v).length = 4 := rfl
@[simp] theorem encHdr_length (h : Header) : (encHdr h).length = 8 := rfl
@[simp] theorem psh_length (src dst : Word) (n : Half) : (psh src dst n).length = 12 := rfl

end Sys2Proof.Machine
end

