-- ==== Sys2Proof/Laws/Encoding.lean ====
section
/-! SUPPORT. The fields of a command word as numbers (30_encoding.md R90): a word is determined by OP, RSV and IMM16. -/

namespace Sys2Proof

theorem opField_toNat (w : Word) : (opField w).toNat = w.toNat % 256 := by simp [opField]

theorem rsvField_toNat (w : Word) : (rsvField w).toNat = w.toNat / 256 % 256 := by
  simp [rsvField, Nat.shiftRight_eq_div_pow]

theorem immField_toNat (w : Word) : (immField w).toNat = w.toNat / 65536 := by
  have := w.isLt
  simp only [immField, BitVec.extractLsb'_toNat, Nat.shiftRight_eq_div_pow]
  omega

/-- The word of a command as a number: `{IMM16, 0x00, OP}` (30_encoding.md R98). -/
theorem encode_toNat (i : Instr) : (encode i).toNat = i.imm16.toNat * 65536 + i.mnemonic.opcode.toNat := by
  rw [encode, BitVec.toNat_append, BitVec.toNat_append, ← Nat.shiftLeft_add_eq_or_of_lt (BitVec.isLt _),
    ← Nat.shiftLeft_add_eq_or_of_lt (BitVec.isLt _)]
  simp only [Nat.shiftLeft_eq, BitVec.toNat_ofNat]
  omega

theorem opField_encode (i : Instr) : opField (encode i) = i.mnemonic.opcode := by
  apply BitVec.eq_of_toNat_eq
  have := i.mnemonic.opcode.isLt
  rw [opField_toNat, encode_toNat]
  omega

theorem rsvField_encode (i : Instr) : rsvField (encode i) = 0#8 := by
  apply BitVec.eq_of_toNat_eq
  have := i.mnemonic.opcode.isLt
  rw [rsvField_toNat, encode_toNat, BitVec.toNat_ofNat]
  omega

theorem immField_encode (i : Instr) : immField (encode i) = i.imm16 := by
  apply BitVec.eq_of_toNat_eq
  have := i.mnemonic.opcode.isLt
  rw [immField_toNat, encode_toNat]
  omega

/-- Two words with the same three fields are one word. -/
theorem word_eq_of_fields {w v : Word} (ho : opField w = opField v) (hr : rsvField w = rsvField v)
    (hi : immField w = immField v) : w = v := by
  apply BitVec.eq_of_toNat_eq
  rw [← BitVec.toNat_inj, opField_toNat, opField_toNat] at ho
  rw [← BitVec.toNat_inj, rsvField_toNat, rsvField_toNat] at hr
  rw [← BitVec.toNat_inj, immField_toNat, immField_toNat] at hi
  omega

end Sys2Proof
end

