-- ==== Sys2Proof/Laws/State.lean ====
section
/-! SUPPORT. One lemma per field and per update of State, each true by rfl, so that no proof unfolds a record update. -/

namespace Sys2Proof.Machine

/-! ### setHdr -/

@[simp] theorem State.setHdr_ctrlIe (s : State) (h : Header) : (s.setHdr h).ctrlIe = s.ctrlIe := rfl
@[simp] theorem State.setHdr_status (s : State) (h : Header) : (s.setHdr h).status = s.status := rfl
@[simp] theorem State.setHdr_cmd (s : State) (h : Header) : (s.setHdr h).cmd = s.cmd := rfl
@[simp] theorem State.setHdr_args (s : State) (h : Header) : (s.setHdr h).args = s.args := rfl
@[simp] theorem State.setHdr_hdr (s : State) (h : Header) : (s.setHdr h).hdr = h := rfl
@[simp] theorem State.setHdr_csumOut (s : State) (h : Header) : (s.setHdr h).csumOut = s.csumOut := rfl
@[simp] theorem State.setHdr_xlen (s : State) (h : Header) : (s.setHdr h).xlen = s.xlen := rfl
@[simp] theorem State.setHdr_latch (s : State) (h : Header) : (s.setHdr h).latch = s.latch := rfl
@[simp] theorem State.setHdr_pbuf (s : State) (h : Header) : (s.setHdr h).pbuf = s.pbuf := rfl
@[simp] theorem State.setHdr_pbufEpoch (s : State) (h : Header) : (s.setHdr h).pbufEpoch = s.pbufEpoch := rfl
@[simp] theorem State.setHdr_pbufBlock (s : State) (h : Header) : (s.setHdr h).pbufBlock = s.pbufBlock := rfl
@[simp] theorem State.setHdr_resetAsserted (s : State) (h : Header) : (s.setHdr h).resetAsserted = s.resetAsserted := rfl
@[simp] theorem State.setHdr_engineLeft (s : State) (h : Header) : (s.setHdr h).engineLeft = s.engineLeft := rfl
@[simp] theorem State.setHdr_cmdLatencies (s : State) (h : Header) : (s.setHdr h).cmdLatencies = s.cmdLatencies := rfl
@[simp] theorem State.setHdr_schedule (s : State) (h : Header) : (s.setHdr h).schedule = s.schedule := rfl
@[simp] theorem State.setHdr_busData (s : State) (h : Header) : (s.setHdr h).busData = s.busData := rfl

/-! ### setPktValid -/

@[simp] theorem State.setPktValid_ctrlIe (s : State) (v : Bool) : (s.setPktValid v).ctrlIe = s.ctrlIe := rfl
@[simp] theorem State.setPktValid_status (s : State) (v : Bool) : (s.setPktValid v).status = { s.status with pktValid := v } := rfl
@[simp] theorem State.setPktValid_cmd (s : State) (v : Bool) : (s.setPktValid v).cmd = s.cmd := rfl
@[simp] theorem State.setPktValid_args (s : State) (v : Bool) : (s.setPktValid v).args = s.args := rfl
@[simp] theorem State.setPktValid_hdr (s : State) (v : Bool) : (s.setPktValid v).hdr = s.hdr := rfl
@[simp] theorem State.setPktValid_csumOut (s : State) (v : Bool) : (s.setPktValid v).csumOut = s.csumOut := rfl
@[simp] theorem State.setPktValid_xlen (s : State) (v : Bool) : (s.setPktValid v).xlen = s.xlen := rfl
@[simp] theorem State.setPktValid_latch (s : State) (v : Bool) : (s.setPktValid v).latch = s.latch := rfl
@[simp] theorem State.setPktValid_pbuf (s : State) (v : Bool) : (s.setPktValid v).pbuf = s.pbuf := rfl
@[simp] theorem State.setPktValid_pbufEpoch (s : State) (v : Bool) : (s.setPktValid v).pbufEpoch = s.pbufEpoch := rfl
@[simp] theorem State.setPktValid_pbufBlock (s : State) (v : Bool) : (s.setPktValid v).pbufBlock = s.pbufBlock := rfl
@[simp] theorem State.setPktValid_resetAsserted (s : State) (v : Bool) : (s.setPktValid v).resetAsserted = s.resetAsserted := rfl
@[simp] theorem State.setPktValid_engineLeft (s : State) (v : Bool) : (s.setPktValid v).engineLeft = s.engineLeft := rfl
@[simp] theorem State.setPktValid_cmdLatencies (s : State) (v : Bool) : (s.setPktValid v).cmdLatencies = s.cmdLatencies := rfl
@[simp] theorem State.setPktValid_schedule (s : State) (v : Bool) : (s.setPktValid v).schedule = s.schedule := rfl
@[simp] theorem State.setPktValid_busData (s : State) (v : Bool) : (s.setPktValid v).busData = s.busData := rfl

/-! ### setCsumOut -/

@[simp] theorem State.setCsumOut_ctrlIe (s : State) (c : Half) : (s.setCsumOut c).ctrlIe = s.ctrlIe := rfl
@[simp] theorem State.setCsumOut_status (s : State) (c : Half) : (s.setCsumOut c).status = s.status := rfl
@[simp] theorem State.setCsumOut_cmd (s : State) (c : Half) : (s.setCsumOut c).cmd = s.cmd := rfl
@[simp] theorem State.setCsumOut_args (s : State) (c : Half) : (s.setCsumOut c).args = s.args := rfl
@[simp] theorem State.setCsumOut_hdr (s : State) (c : Half) : (s.setCsumOut c).hdr = s.hdr := rfl
@[simp] theorem State.setCsumOut_csumOut (s : State) (c : Half) : (s.setCsumOut c).csumOut = c := rfl
@[simp] theorem State.setCsumOut_xlen (s : State) (c : Half) : (s.setCsumOut c).xlen = s.xlen := rfl
@[simp] theorem State.setCsumOut_latch (s : State) (c : Half) : (s.setCsumOut c).latch = s.latch := rfl
@[simp] theorem State.setCsumOut_pbuf (s : State) (c : Half) : (s.setCsumOut c).pbuf = s.pbuf := rfl
@[simp] theorem State.setCsumOut_pbufEpoch (s : State) (c : Half) : (s.setCsumOut c).pbufEpoch = s.pbufEpoch := rfl
@[simp] theorem State.setCsumOut_pbufBlock (s : State) (c : Half) : (s.setCsumOut c).pbufBlock = s.pbufBlock := rfl
@[simp] theorem State.setCsumOut_resetAsserted (s : State) (c : Half) : (s.setCsumOut c).resetAsserted = s.resetAsserted := rfl
@[simp] theorem State.setCsumOut_engineLeft (s : State) (c : Half) : (s.setCsumOut c).engineLeft = s.engineLeft := rfl
@[simp] theorem State.setCsumOut_cmdLatencies (s : State) (c : Half) : (s.setCsumOut c).cmdLatencies = s.cmdLatencies := rfl
@[simp] theorem State.setCsumOut_schedule (s : State) (c : Half) : (s.setCsumOut c).schedule = s.schedule := rfl
@[simp] theorem State.setCsumOut_busData (s : State) (c : Half) : (s.setCsumOut c).busData = s.busData := rfl

/-! ### setXlen -/

@[simp] theorem State.setXlen_ctrlIe (s : State) (n : Half) : (s.setXlen n).ctrlIe = s.ctrlIe := rfl
@[simp] theorem State.setXlen_status (s : State) (n : Half) : (s.setXlen n).status = s.status := rfl
@[simp] theorem State.setXlen_cmd (s : State) (n : Half) : (s.setXlen n).cmd = s.cmd := rfl
@[simp] theorem State.setXlen_args (s : State) (n : Half) : (s.setXlen n).args = s.args := rfl
@[simp] theorem State.setXlen_hdr (s : State) (n : Half) : (s.setXlen n).hdr = s.hdr := rfl
@[simp] theorem State.setXlen_csumOut (s : State) (n : Half) : (s.setXlen n).csumOut = s.csumOut := rfl
@[simp] theorem State.setXlen_xlen (s : State) (n : Half) : (s.setXlen n).xlen = n := rfl
@[simp] theorem State.setXlen_latch (s : State) (n : Half) : (s.setXlen n).latch = s.latch := rfl
@[simp] theorem State.setXlen_pbuf (s : State) (n : Half) : (s.setXlen n).pbuf = s.pbuf := rfl
@[simp] theorem State.setXlen_pbufEpoch (s : State) (n : Half) : (s.setXlen n).pbufEpoch = s.pbufEpoch := rfl
@[simp] theorem State.setXlen_pbufBlock (s : State) (n : Half) : (s.setXlen n).pbufBlock = s.pbufBlock := rfl
@[simp] theorem State.setXlen_resetAsserted (s : State) (n : Half) : (s.setXlen n).resetAsserted = s.resetAsserted := rfl
@[simp] theorem State.setXlen_engineLeft (s : State) (n : Half) : (s.setXlen n).engineLeft = s.engineLeft := rfl
@[simp] theorem State.setXlen_cmdLatencies (s : State) (n : Half) : (s.setXlen n).cmdLatencies = s.cmdLatencies := rfl
@[simp] theorem State.setXlen_schedule (s : State) (n : Half) : (s.setXlen n).schedule = s.schedule := rfl
@[simp] theorem State.setXlen_busData (s : State) (n : Half) : (s.setXlen n).busData = s.busData := rfl

/-! ### memWrite -/

@[simp] theorem State.memWrite_ctrlIe (s : State) (a : Nat) (bs : List Byte) : (s.memWrite a bs).ctrlIe = s.ctrlIe := rfl
@[simp] theorem State.memWrite_status (s : State) (a : Nat) (bs : List Byte) : (s.memWrite a bs).status = s.status := rfl
@[simp] theorem State.memWrite_cmd (s : State) (a : Nat) (bs : List Byte) : (s.memWrite a bs).cmd = s.cmd := rfl
@[simp] theorem State.memWrite_args (s : State) (a : Nat) (bs : List Byte) : (s.memWrite a bs).args = s.args := rfl
@[simp] theorem State.memWrite_hdr (s : State) (a : Nat) (bs : List Byte) : (s.memWrite a bs).hdr = s.hdr := rfl
@[simp] theorem State.memWrite_csumOut (s : State) (a : Nat) (bs : List Byte) : (s.memWrite a bs).csumOut = s.csumOut := rfl
@[simp] theorem State.memWrite_xlen (s : State) (a : Nat) (bs : List Byte) : (s.memWrite a bs).xlen = s.xlen := rfl
@[simp] theorem State.memWrite_latch (s : State) (a : Nat) (bs : List Byte) : (s.memWrite a bs).latch = s.latch := rfl
@[simp] theorem State.memWrite_pbuf (s : State) (a : Nat) (bs : List Byte) : (s.memWrite a bs).pbuf = s.pbuf.setBytes a bs := rfl
@[simp] theorem State.memWrite_pbufEpoch (s : State) (a : Nat) (bs : List Byte) : (s.memWrite a bs).pbufEpoch = s.pbufEpoch := rfl
@[simp] theorem State.memWrite_pbufBlock (s : State) (a : Nat) (bs : List Byte) : (s.memWrite a bs).pbufBlock = s.pbufBlock := rfl
@[simp] theorem State.memWrite_resetAsserted (s : State) (a : Nat) (bs : List Byte) : (s.memWrite a bs).resetAsserted = s.resetAsserted := rfl
@[simp] theorem State.memWrite_engineLeft (s : State) (a : Nat) (bs : List Byte) : (s.memWrite a bs).engineLeft = s.engineLeft := rfl
@[simp] theorem State.memWrite_cmdLatencies (s : State) (a : Nat) (bs : List Byte) : (s.memWrite a bs).cmdLatencies = s.cmdLatencies := rfl
@[simp] theorem State.memWrite_schedule (s : State) (a : Nat) (bs : List Byte) : (s.memWrite a bs).schedule = s.schedule := rfl
@[simp] theorem State.memWrite_busData (s : State) (a : Nat) (bs : List Byte) : (s.memWrite a bs).busData = s.busData := rfl

/-! ### accept -/

@[simp] theorem State.accept_ctrlIe (s : State) (w : Word) : (s.accept w).ctrlIe = s.ctrlIe := rfl
@[simp] theorem State.accept_status (s : State) (w : Word) : (s.accept w).status = s.status.accepted := rfl
@[simp] theorem State.accept_cmd (s : State) (w : Word) : (s.accept w).cmd = w := rfl
@[simp] theorem State.accept_args (s : State) (w : Word) : (s.accept w).args = s.args := rfl
@[simp] theorem State.accept_hdr (s : State) (w : Word) : (s.accept w).hdr = s.hdr := rfl
@[simp] theorem State.accept_csumOut (s : State) (w : Word) : (s.accept w).csumOut = s.csumOut := rfl
@[simp] theorem State.accept_xlen (s : State) (w : Word) : (s.accept w).xlen = s.xlen := rfl
@[simp] theorem State.accept_latch (s : State) (w : Word) : (s.accept w).latch = ⟨w, s.args⟩ := rfl
@[simp] theorem State.accept_pbuf (s : State) (w : Word) : (s.accept w).pbuf = s.pbuf := rfl
@[simp] theorem State.accept_pbufEpoch (s : State) (w : Word) : (s.accept w).pbufEpoch = s.pbufEpoch := rfl
@[simp] theorem State.accept_pbufBlock (s : State) (w : Word) : (s.accept w).pbufBlock = s.pbufBlock := rfl
@[simp] theorem State.accept_resetAsserted (s : State) (w : Word) : (s.accept w).resetAsserted = s.resetAsserted := rfl
@[simp] theorem State.accept_engineLeft (s : State) (w : Word) : (s.accept w).engineLeft = nextLatency s.cmdLatencies := rfl
@[simp] theorem State.accept_cmdLatencies (s : State) (w : Word) : (s.accept w).cmdLatencies = s.cmdLatencies.tail := rfl
@[simp] theorem State.accept_schedule (s : State) (w : Word) : (s.accept w).schedule = s.schedule := rfl
@[simp] theorem State.accept_busData (s : State) (w : Word) : (s.accept w).busData = s.busData := rfl

/-! ### complete -/

@[simp] theorem State.complete_ctrlIe (s : State) (c : BitVec 4) : (s.complete c).ctrlIe = s.ctrlIe := rfl
@[simp] theorem State.complete_status (s : State) (c : BitVec 4) : (s.complete c).status = s.status.completed c := rfl
@[simp] theorem State.complete_cmd (s : State) (c : BitVec 4) : (s.complete c).cmd = s.cmd := rfl
@[simp] theorem State.complete_args (s : State) (c : BitVec 4) : (s.complete c).args = s.args := rfl
@[simp] theorem State.complete_hdr (s : State) (c : BitVec 4) : (s.complete c).hdr = s.hdr := rfl
@[simp] theorem State.complete_csumOut (s : State) (c : BitVec 4) : (s.complete c).csumOut = s.csumOut := rfl
@[simp] theorem State.complete_xlen (s : State) (c : BitVec 4) : (s.complete c).xlen = s.xlen := rfl
@[simp] theorem State.complete_latch (s : State) (c : BitVec 4) : (s.complete c).latch = s.latch := rfl
@[simp] theorem State.complete_pbuf (s : State) (c : BitVec 4) : (s.complete c).pbuf = s.pbuf := rfl
@[simp] theorem State.complete_pbufEpoch (s : State) (c : BitVec 4) : (s.complete c).pbufEpoch = s.pbufEpoch := rfl
@[simp] theorem State.complete_pbufBlock (s : State) (c : BitVec 4) : (s.complete c).pbufBlock = s.pbufBlock := rfl
@[simp] theorem State.complete_resetAsserted (s : State) (c : BitVec 4) : (s.complete c).resetAsserted = s.resetAsserted := rfl
@[simp] theorem State.complete_engineLeft (s : State) (c : BitVec 4) : (s.complete c).engineLeft = 0 := rfl
@[simp] theorem State.complete_cmdLatencies (s : State) (c : BitVec 4) : (s.complete c).cmdLatencies = s.cmdLatencies := rfl
@[simp] theorem State.complete_schedule (s : State) (c : BitVec 4) : (s.complete c).schedule = s.schedule := rfl
@[simp] theorem State.complete_busData (s : State) (c : BitVec 4) : (s.complete c).busData = s.busData := rfl

/-! ### popEvent -/

@[simp] theorem State.popEvent_ctrlIe (s : State) : (s.popEvent).ctrlIe = s.ctrlIe := rfl
@[simp] theorem State.popEvent_status (s : State) : (s.popEvent).status = s.status := rfl
@[simp] theorem State.popEvent_cmd (s : State) : (s.popEvent).cmd = s.cmd := rfl
@[simp] theorem State.popEvent_args (s : State) : (s.popEvent).args = s.args := rfl
@[simp] theorem State.popEvent_hdr (s : State) : (s.popEvent).hdr = s.hdr := rfl
@[simp] theorem State.popEvent_csumOut (s : State) : (s.popEvent).csumOut = s.csumOut := rfl
@[simp] theorem State.popEvent_xlen (s : State) : (s.popEvent).xlen = s.xlen := rfl
@[simp] theorem State.popEvent_latch (s : State) : (s.popEvent).latch = s.latch := rfl
@[simp] theorem State.popEvent_pbuf (s : State) : (s.popEvent).pbuf = s.pbuf := rfl
@[simp] theorem State.popEvent_pbufEpoch (s : State) : (s.popEvent).pbufEpoch = s.pbufEpoch := rfl
@[simp] theorem State.popEvent_pbufBlock (s : State) : (s.popEvent).pbufBlock = s.pbufBlock := rfl
@[simp] theorem State.popEvent_resetAsserted (s : State) : (s.popEvent).resetAsserted = s.resetAsserted := rfl
@[simp] theorem State.popEvent_engineLeft (s : State) : (s.popEvent).engineLeft = s.engineLeft := rfl
@[simp] theorem State.popEvent_cmdLatencies (s : State) : (s.popEvent).cmdLatencies = s.cmdLatencies := rfl
@[simp] theorem State.popEvent_schedule (s : State) : (s.popEvent).schedule = s.schedule.tail := rfl
@[simp] theorem State.popEvent_busData (s : State) : (s.popEvent).busData = s.busData := rfl

/-! ### resetBlock -/

@[simp] theorem State.resetBlock_ctrlIe (s : State) (b : Bool) : (s.resetBlock b).ctrlIe = State.reset.ctrlIe := rfl
@[simp] theorem State.resetBlock_status (s : State) (b : Bool) : (s.resetBlock b).status = State.reset.status := rfl
@[simp] theorem State.resetBlock_cmd (s : State) (b : Bool) : (s.resetBlock b).cmd = State.reset.cmd := rfl
@[simp] theorem State.resetBlock_args (s : State) (b : Bool) : (s.resetBlock b).args = State.reset.args := rfl
@[simp] theorem State.resetBlock_hdr (s : State) (b : Bool) : (s.resetBlock b).hdr = State.reset.hdr := rfl
@[simp] theorem State.resetBlock_csumOut (s : State) (b : Bool) : (s.resetBlock b).csumOut = State.reset.csumOut := rfl
@[simp] theorem State.resetBlock_xlen (s : State) (b : Bool) : (s.resetBlock b).xlen = State.reset.xlen := rfl
@[simp] theorem State.resetBlock_latch (s : State) (b : Bool) : (s.resetBlock b).latch = State.reset.latch := rfl
@[simp] theorem State.resetBlock_pbuf (s : State) (b : Bool) : (s.resetBlock b).pbuf = State.reset.pbuf := rfl
@[simp] theorem State.resetBlock_pbufEpoch (s : State) (b : Bool) : (s.resetBlock b).pbufEpoch = s.pbufEpoch + 1 := rfl
@[simp] theorem State.resetBlock_pbufBlock (s : State) (b : Bool) : (s.resetBlock b).pbufBlock = s.pbufBlock := rfl
@[simp] theorem State.resetBlock_resetAsserted (s : State) (b : Bool) : (s.resetBlock b).resetAsserted = b := rfl
@[simp] theorem State.resetBlock_engineLeft (s : State) (b : Bool) : (s.resetBlock b).engineLeft = State.reset.engineLeft := rfl
@[simp] theorem State.resetBlock_cmdLatencies (s : State) (b : Bool) : (s.resetBlock b).cmdLatencies = s.cmdLatencies := rfl
@[simp] theorem State.resetBlock_schedule (s : State) (b : Bool) : (s.resetBlock b).schedule = s.schedule := rfl
@[simp] theorem State.resetBlock_busData (s : State) (b : Bool) : (s.resetBlock b).busData = s.busData := rfl

/-! ### STATUS -/

@[simp] theorem Status.accepted_busy (st : Status) : (st.accepted).busy = true := rfl
@[simp] theorem Status.accepted_done (st : Status) : (st.accepted).done = false := rfl
@[simp] theorem Status.accepted_pktValid (st : Status) : (st.accepted).pktValid = st.pktValid := rfl
@[simp] theorem Status.accepted_anyErr (st : Status) : (st.accepted).anyErr = st.anyErr := rfl
@[simp] theorem Status.accepted_ovr (st : Status) : (st.accepted).ovr = st.ovr := rfl
@[simp] theorem Status.accepted_errCode (st : Status) : (st.accepted).errCode = st.errCode := rfl
@[simp] theorem Status.completed_busy (st : Status) (c : BitVec 4) : (st.completed c).busy = false := rfl
@[simp] theorem Status.completed_done (st : Status) (c : BitVec 4) : (st.completed c).done = true := rfl
@[simp] theorem Status.completed_pktValid (st : Status) (c : BitVec 4) : (st.completed c).pktValid = st.pktValid := rfl
@[simp] theorem Status.completed_anyErr (st : Status) (c : BitVec 4) : (st.completed c).anyErr = (st.anyErr || c != 0#4) := rfl
@[simp] theorem Status.completed_ovr (st : Status) (c : BitVec 4) : (st.completed c).ovr = st.ovr := rfl
@[simp] theorem Status.completed_errCode (st : Status) (c : BitVec 4) : (st.completed c).errCode = c := rfl
@[simp] theorem Status.overrun_busy (st : Status) : (st.overrun).busy = st.busy := rfl
@[simp] theorem Status.overrun_done (st : Status) : (st.overrun).done = st.done := rfl
@[simp] theorem Status.overrun_pktValid (st : Status) : (st.overrun).pktValid = st.pktValid := rfl
@[simp] theorem Status.overrun_anyErr (st : Status) : (st.overrun).anyErr = st.anyErr := rfl
@[simp] theorem Status.overrun_ovr (st : Status) : (st.overrun).ovr = true := rfl
@[simp] theorem Status.overrun_errCode (st : Status) : (st.overrun).errCode = st.errCode := rfl
@[simp] theorem Status.clearBits_busy (st : Status) (v : Word) : (st.clearBits v).busy = st.busy := rfl
@[simp] theorem Status.clearBits_done (st : Status) (v : Word) : (st.clearBits v).done = (st.done && !v.getLsbD 1) := rfl
@[simp] theorem Status.clearBits_pktValid (st : Status) (v : Word) : (st.clearBits v).pktValid = st.pktValid := rfl
@[simp] theorem Status.clearBits_anyErr (st : Status) (v : Word) : (st.clearBits v).anyErr = (st.anyErr && !v.getLsbD 4) := rfl
@[simp] theorem Status.clearBits_ovr (st : Status) (v : Word) : (st.clearBits v).ovr = (st.ovr && !v.getLsbD 5) := rfl
@[simp] theorem Status.clearBits_errCode (st : Status) (v : Word) : (st.clearBits v).errCode = st.errCode := rfl

end Sys2Proof.Machine
end

