-- ==== Sys2Proof/Laws/Memory.lean ====
section
/-! SUPPORT. PBUF: a read after a write, what a write leaves alone, and the canonical form (log 2). -/

namespace Sys2Proof.Machine

/-! ### One byte -/

theorem Memory.get?_set (m : Memory) (a : Nat) (b : Byte) (k : Nat) :
    (m.set a b).get? k = if k = a then some b else m.get? k := by
  induction m with
  | nil => simp [Memory.set, Memory.get?, eq_comm]
  | cons c m ih =>
    obtain ⟨j, d⟩ := c
    unfold Memory.set
    split_ifs <;> simp only [Memory.get?, ih] <;> split_ifs <;> first | rfl | omega

theorem Memory.wfFrom_mono {m : Memory} {lo lo' : Nat} (h : Memory.wfFrom lo m = true) (hl : lo' ≤ lo) :
    Memory.wfFrom lo' m = true := by
  cases m with
  | nil => rfl
  | cons c m =>
    simp only [Memory.wfFrom, Bool.and_eq_true, decide_eq_true_eq] at h ⊢
    exact ⟨⟨hl.trans h.1.1, h.1.2⟩, h.2⟩

theorem Memory.wfFrom_set {m : Memory} {lo a : Nat} (b : Byte) (h : Memory.wfFrom lo m = true)
    (hl : lo ≤ a) (ha : a < Config.bufBytes) : Memory.wfFrom lo (m.set a b) = true := by
  induction m generalizing lo with
  | nil => simp [Memory.set, Memory.wfFrom, hl, ha]
  | cons c m ih =>
    obtain ⟨k, d⟩ := c
    simp only [Memory.wfFrom, Bool.and_eq_true, decide_eq_true_eq] at h
    unfold Memory.set
    split_ifs with h1 h2
    · simp only [Memory.wfFrom, Bool.and_eq_true, decide_eq_true_eq]
      exact ⟨⟨hl, ha⟩, ⟨h1, h.1.2⟩, h.2⟩
    · subst h2
      simp only [Memory.wfFrom, Bool.and_eq_true, decide_eq_true_eq]
      exact ⟨⟨hl, ha⟩, h.2⟩
    · simp only [Memory.wfFrom, Bool.and_eq_true, decide_eq_true_eq]
      exact ⟨h.1, ih h.2 (by omega)⟩

/-! ### A run of bytes -/

theorem Memory.get?_setBytes_below (bs : List Byte) (m : Memory) {a k : Nat} (h : k < a) :
    (m.setBytes a bs).get? k = m.get? k := by
  induction bs generalizing m a with
  | nil => rfl
  | cons b bs ih => rw [Memory.setBytes, ih _ (by omega), Memory.get?_set, if_neg (by omega)]

theorem Memory.get?_setBytes_inside (bs : List Byte) (m : Memory) (a : Nat) {k : Nat} (h : k < bs.length) :
    (m.setBytes a bs).get? (a + k) = some bs[k] := by
  induction bs generalizing m a k with
  | nil => simp at h
  | cons b bs ih =>
    rw [Memory.setBytes]
    cases k with
    | zero => simp [Memory.get?_setBytes_below _ _ (Nat.lt_succ_self a), Memory.get?_set]
    | succ k =>
      rw [show a + (k + 1) = a + 1 + k by omega, ih _ _ (by simpa using h)]
      rfl

theorem Memory.get?_setBytes_outside (bs : List Byte) (m : Memory) {a k : Nat}
    (h : k < a ∨ a + bs.length ≤ k) : (m.setBytes a bs).get? k = m.get? k := by
  induction bs generalizing m a with
  | nil => rfl
  | cons b bs ih =>
    have hk : k ≠ a := by
      simp only [List.length_cons] at h
      omega
    rw [Memory.setBytes, ih _ (by simp only [List.length_cons] at h; omega), Memory.get?_set, if_neg hk]

/-- Every write inside the buffer keeps the canonical form. -/
theorem Memory.wf_setBytes {bs : List Byte} {m : Memory} {a : Nat} (h : m.wf = true)
    (ha : a + bs.length ≤ Config.bufBytes) : (m.setBytes a bs).wf = true := by
  induction bs generalizing m a with
  | nil => exact h
  | cons b bs ih =>
    simp only [List.length_cons] at ha
    rw [Memory.setBytes]
    exact ih (Memory.wfFrom_set b h (Nat.zero_le _) (by omega)) (by omega)

theorem Memory.wf_nil : Memory.wf [] = true := rfl

/-! ### Through the state -/

theorem State.readByte_memWrite_inside (s : State) (a : Nat) (bs : List Byte) {k : Nat} (h : k < bs.length) :
    (s.memWrite a bs).readByte (a + k) = bs[k] := by
  simp [State.readByte, Memory.get?_setBytes_inside bs s.pbuf a h]

theorem State.readByte_memWrite_outside (s : State) {a : Nat} {bs : List Byte} {k : Nat}
    (h : k < a ∨ a + bs.length ≤ k) : (s.memWrite a bs).readByte k = s.readByte k := by
  simp [State.readByte, Memory.get?_setBytes_outside bs s.pbuf h]

/-- A read of PBUF depends on the written bytes, the reset count and the block's number only. -/
theorem State.readByte_congr {s t : State} (hp : t.pbuf = s.pbuf) (he : t.pbufEpoch = s.pbufEpoch)
    (hb : t.pbufBlock = s.pbufBlock) (a : Nat) : t.readByte a = s.readByte a := by
  simp [State.readByte, hp, he, hb]

@[simp] theorem State.readByte_setHdr (s : State) (h : Header) (a : Nat) : (s.setHdr h).readByte a = s.readByte a := rfl
@[simp] theorem State.readByte_setPktValid (s : State) (v : Bool) (a : Nat) :
    (s.setPktValid v).readByte a = s.readByte a := rfl
@[simp] theorem State.readByte_setCsumOut (s : State) (c : Half) (a : Nat) :
    (s.setCsumOut c).readByte a = s.readByte a := rfl
@[simp] theorem State.readByte_setXlen (s : State) (n : Half) (a : Nat) : (s.setXlen n).readByte a = s.readByte a := rfl
@[simp] theorem State.readByte_complete (s : State) (c : BitVec 4) (a : Nat) :
    (s.complete c).readByte a = s.readByte a := rfl
@[simp] theorem State.readByte_accept (s : State) (w : Word) (a : Nat) : (s.accept w).readByte a = s.readByte a := rfl

@[simp] theorem State.memRead_length (s : State) (a n : Nat) : (s.memRead a n).length = n := by
  simp [State.memRead]

@[simp] theorem State.memRead_getElem (s : State) (a n k : Nat) (h : k < (s.memRead a n).length) :
    (s.memRead a n)[k] = s.readByte (a + k) := by
  simp [State.memRead]

theorem State.memRead_congr {s t : State} {a n : Nat} (h : ∀ k, k < n → t.readByte (a + k) = s.readByte (a + k)) :
    t.memRead a n = s.memRead a n := by
  apply List.ext_getElem <;> simp only [State.memRead_length, State.memRead_getElem]
  · intro i hi _
    exact h i hi

/-- What was written is read back. -/
theorem State.memRead_memWrite (s : State) (a : Nat) (bs : List Byte) : (s.memWrite a bs).memRead a bs.length = bs := by
  apply List.ext_getElem
  · simp
  · intro i h1 h2
    rw [State.memRead_getElem, State.readByte_memWrite_inside s a bs h2]

/-- Two consecutive ranges are one. -/
theorem State.memRead_append (s : State) (a m n : Nat) : s.memRead a (m + n) = s.memRead a m ++ s.memRead (a + m) n := by
  simp [State.memRead, List.range_add, Nat.add_assoc]

@[simp] theorem State.memRead_zero (s : State) (a : Nat) : s.memRead a 0 = [] := rfl

end Sys2Proof.Machine
end

