-- ==== Sys2Proof/Laws/Ops.lean ====
section
/-! SUPPORT. Once for each shared operation, all it can do: completion, refused steps, host accesses, the engine's steps. -/

namespace Sys2Proof.Machine

/-! ### Completion (60_exceptions.md R208) -/

@[simp] theorem finish_ok (s t : State) : finish s (.ok t) = .next (t.complete codeOk) := rfl

@[simp] theorem finish_error (s : State) (e : CmdError) : finish s (.error e) = .next (s.complete e.code) := rfl

/-- A completion always answers a next state. -/
theorem finish_next (s : State) (r : Except CmdError State) : ∃ t, finish s r = .next t := by
  cases r <;> exact ⟨_, rfl⟩

/-- A completion is one of two: all the writes and code 0, or none and the error's code. -/
theorem finish_cases {s t : State} {r : Except CmdError State} (h : finish s r = .next t) :
    (∃ u, r = .ok u ∧ t = u.complete codeOk) ∨ ∃ e, r = .error e ∧ t = s.complete e.code := by
  cases r with
  | ok u => exact .inl ⟨u, rfl, by simpa using h.symm⟩
  | error e => exact .inr ⟨e, rfl, by simpa using h.symm⟩

theorem raiseIf_true {bad : Bool} (h : bad = true) (e : CmdError) (r : Except CmdError State) :
    raiseIf bad e r = .error e := by simp [raiseIf, h]

theorem raiseIf_false {bad : Bool} (h : bad = false) (e : CmdError) (r : Except CmdError State) :
    raiseIf bad e r = r := by simp [raiseIf, h]

/-- The writes after a check are made exactly when the check passes. -/
@[simp] theorem raiseIf_eq_ok {bad : Bool} {e : CmdError} {r : Except CmdError State} {u : State} :
    raiseIf bad e r = .ok u ↔ bad = false ∧ r = .ok u := by
  cases bad <;> simp [raiseIf]

/-- An error comes from the check, or, when it passes, from what follows it. -/
@[simp] theorem raiseIf_eq_error {bad : Bool} {e e' : CmdError} {r : Except CmdError State} :
    raiseIf bad e r = .error e' ↔ (bad = true ∧ e = e') ∨ (bad = false ∧ r = .error e') := by
  cases bad <;> simp [raiseIf]

/-- No error's code is the code of success (60_exceptions.md R200). -/
theorem CmdError.code_ne_ok (e : CmdError) : e.code ≠ codeOk := by cases e <;> decide

/-- The codes are 1 to 7 (60_exceptions.md R200). -/
theorem CmdError.code_le (e : CmdError) : e.code.toNat ≤ 7 := by cases e <;> decide

/-! ### Latency (log 5) -/

theorem one_le_nextLatency (plan : List Nat) : 1 ≤ nextLatency plan := by simp [nextLatency]

/-! ### Host accesses -/

theorem hostRead_cases {width offset : Nat} {s t : State} (h : hostRead width offset s = .next t) :
    s.refusal? width offset = none ∧ t = { s with busData := some (s.hostReadValue width offset) } := by
  unfold hostRead at h
  split at h
  · cases h
  · next hr => exact ⟨hr, by simpa using h.symm⟩

theorem hostWrite_cases {width offset : Nat} {v : Word} {s t : State} (h : hostWrite width offset v s = .next t) :
    s.refusal? width offset = none ∧ t = s.hostWriteEffect width offset v := by
  unfold hostWrite at h
  split at h
  · cases h
  · next hr => exact ⟨hr, by simpa using h.symm⟩

theorem refusal?_eq_none {s : State} {width offset : Nat} (h : s.refusal? width offset = none) :
    s.resetAsserted = false ∧ offset < Config.windowBytes ∧ legalAccess width offset = true := by
  unfold State.refusal? at h
  split_ifs at h with h1 h2 h3
  exact ⟨by simpa using h1, by omega, h3⟩

/-- A legal access of the PBUF window is 1, 2 or 4 bytes wide and lies inside PBUF (20_memory.md R65). -/
theorem legalAccess_pbuf {width offset : Nat} (h : legalAccess width offset = true)
    (hw : Config.pbufWindow ≤ offset) (he : offset < Config.windowBytes) :
    (width = 8 ∨ width = 16 ∨ width = 32) ∧ offset - Config.pbufWindow + width / 8 ≤ Config.bufBytes := by
  rw [legalAccess, if_neg (Nat.not_lt.mpr hw)] at h
  simp only [Bool.and_eq_true, Bool.or_eq_true, beq_iff_eq] at h
  unfold Config.pbufWindow at hw ⊢
  unfold Config.windowBytes at he
  unfold Config.bufBytes
  obtain ⟨(h1 | h1) | h1, h2⟩ := h <;> subst h1 <;> simp at h2 ⊢ <;> omega

theorem laneBytes_length {width : Nat} (h : width = 8 ∨ width = 16 ∨ width = 32) (v : Word) :
    (laneBytes width v).length = width / 8 := by
  obtain h | h | h := h <;> subst h <;> rfl

/-- A host write is one of four: refused while BUSY with OVR set, an acceptance, a write of one register or of PBUF, or
nothing (10_state.md R24, R44; 20_memory.md R70). -/
theorem hostWriteEffect_cases (s : State) (width offset : Nat) (v : Word) :
    (Config.pbufWindow ≤ offset ∧ s.hostWriteEffect width offset v = s.hostWritePbuf width (offset - Config.pbufWindow) v) ∨
    (offset < Config.pbufWindow ∧ ∃ r, Reg.ofOffset offset = some r ∧ s.hostWriteEffect width offset v = s.writeReg v r) ∨
    (offset < Config.pbufWindow ∧ Reg.ofOffset offset = none ∧ s.hostWriteEffect width offset v = s) := by
  unfold State.hostWriteEffect
  split_ifs with h
  · exact .inl ⟨h, rfl⟩
  · have h' : offset < Config.pbufWindow := by omega
    cases hr : Reg.ofOffset offset with
    | none => exact .inr (.inr ⟨h', rfl, rfl⟩)
    | some r => exact .inr (.inl ⟨h', r, rfl, rfl⟩)

theorem Reg.ofOffset_offset (r : Reg) : Reg.ofOffset r.offset = some r := by cases r <;> rfl

/-! ### The engine -/

/-- An engine step is one of three: nothing, a step of waiting, or the completion (60_exceptions.md R208, log 8). -/
theorem engineStep_cases (s : State) :
    ((s.resetAsserted = true ∨ s.status.busy = false) ∧ engineStep s = .next s) ∨
    (s.resetAsserted = false ∧ s.status.busy = true ∧ s.engineLeft > 1 ∧
      engineStep s = .next { s with engineLeft := s.engineLeft - 1 }) ∨
    (s.resetAsserted = false ∧ s.status.busy = true ∧ s.engineLeft ≤ 1 ∧ engineStep s = completeLatched s) := by
  unfold engineStep
  split_ifs with h1 h2
  · refine .inl ⟨?_, rfl⟩
    simpa using h1
  · simp at h1
    exact .inr (.inl ⟨h1.1, h1.2, h2, rfl⟩)
  · simp at h1
    exact .inr (.inr ⟨h1.1, h1.2, by omega, rfl⟩)

end Sys2Proof.Machine
end

