-- ==== Sys2Proof/Laws/Exec.lean ====
section
/-! SUPPORT. The meaning of each command as one completion (60_exceptions.md R208), and a run of the machine step by step. -/

namespace Sys2Proof.Machine

/-! ### Each command is one completion of its pseudocode -/

theorem exec_hdrConstruct (s : State) : exec .hdrConstruct s = finish s
    (raiseIf (decide (Config.headerBytes + s.latch.args.length > Config.maxUdpLength)) .payloadTooLarge
      (.ok ((s.setHdr (s.latch.args.newHeader s.latch.args.length 0#16)).setPktValid false))) := rfl

theorem exec_hdrSetCsum (value : Half) (s : State) :
    exec (.hdrSetCsum value) s = finish s (.ok (s.setHdr { s.hdr with csum := value })) := rfl

theorem exec_hdrEncode (s : State) : exec .hdrEncode s = finish s (.ok (s.memWrite 0 (encHdr s.hdr))) := rfl

theorem exec_hdrDecode (s : State) : exec .hdrDecode s = finish s
    (raiseIf (decide (s.latch.args.length < Config.headerBytes)) .truncatedHeader
      (.ok ((s.setHdr (decHdr (s.memRead 0 Config.headerBytes))).setPktValid false))) := rfl

theorem exec_pshEncode (udpLength : Half) (s : State) : exec (.pshEncode udpLength) s = finish s
    (raiseIf (decide (s.latch.args.offset + Config.pseudoHeaderBytes > Config.bufBytes)) .badRange
      (.ok (s.memWrite s.latch.args.offset (psh s.latch.args.srcIp s.latch.args.dstIp udpLength)))) := rfl

theorem exec_csumBuf (s : State) : exec .csumBuf s = finish s
    (raiseIf (decide (s.latch.args.offset + s.latch.args.length > Config.bufBytes)) .badRange
      (.ok (s.setCsumOut (checksum (s.memRead s.latch.args.offset s.latch.args.length))))) := rfl

theorem exec_pktConstruct (s : State) : exec .pktConstruct s = finish s
    (raiseIf (decide (Config.headerBytes + s.latch.args.length > Config.maxUdpLength)) .payloadTooLarge
      (.ok ((s.setHdr (s.latch.args.newHeader s.latch.args.length
        (checksum (packetInput s.latch.args.srcIp s.latch.args.dstIp
          (s.latch.args.newHeader s.latch.args.length 0#16)
          (s.memRead Config.headerBytes s.latch.args.length))))).setPktValid true))) := rfl

theorem exec_pktEncode (s : State) : exec .pktEncode s = finish s
    (raiseIf (!s.status.pktValid) .noPacket (.ok ((s.memWrite 0 (encHdr s.hdr)).setXlen s.hdr.len))) := rfl

theorem exec_pktDecode (s : State) : exec .pktDecode s = finish s
    (raiseIf (decide (s.latch.args.length < Config.headerBytes)) .truncatedPacket
      (raiseIf (decide ((decHdr (s.memRead 0 Config.headerBytes)).len.toNat ≠ s.latch.args.length)) .lengthMismatch
        (.ok ((s.setHdr (decHdr (s.memRead 0 Config.headerBytes))).setPktValid true)))) := rfl

theorem exec_pktCsum (s : State) : exec .pktCsum s = finish s
    (raiseIf (!s.status.pktValid) .noPacket
      (.ok (s.setCsumOut (checksum (packetInput s.latch.args.srcIp s.latch.args.dstIp s.hdr
        (s.memRead Config.headerBytes (s.hdr.len.toNat - Config.headerBytes))))))) := rfl

/-- What the host cannot see change at a completion: whichever command it is, the writes of its pseudocode leave the
completion fields, the operands, CMD, the latch, CTRL.IE and everything outside the block alone (10_state.md R20). -/
theorem exec_eq_finish (i : Instr) (s : State) : ∃ r, exec i s = finish s r ∧ ∀ u, r = .ok u →
    u.status.busy = s.status.busy ∧ u.status.done = s.status.done ∧ u.status.ovr = s.status.ovr ∧
    u.status.anyErr = s.status.anyErr ∧ u.status.errCode = s.status.errCode ∧ u.args = s.args ∧ u.cmd = s.cmd ∧
    u.latch = s.latch ∧ u.ctrlIe = s.ctrlIe ∧ u.pbufEpoch = s.pbufEpoch ∧ u.pbufBlock = s.pbufBlock ∧
    u.resetAsserted = s.resetAsserted ∧ u.engineLeft = s.engineLeft ∧ u.cmdLatencies = s.cmdLatencies ∧
    u.schedule = s.schedule ∧ u.busData = s.busData := by
  cases i with
  | hdrConstruct => exact ⟨_, exec_hdrConstruct s, fun u hu => by obtain ⟨-, h⟩ := raiseIf_eq_ok.1 hu; cases h; simp⟩
  | hdrSetCsum v => exact ⟨_, exec_hdrSetCsum v s, fun u hu => by cases hu; simp⟩
  | hdrEncode => exact ⟨_, exec_hdrEncode s, fun u hu => by cases hu; simp⟩
  | hdrDecode => exact ⟨_, exec_hdrDecode s, fun u hu => by obtain ⟨-, h⟩ := raiseIf_eq_ok.1 hu; cases h; simp⟩
  | pshEncode n => exact ⟨_, exec_pshEncode n s, fun u hu => by obtain ⟨-, h⟩ := raiseIf_eq_ok.1 hu; cases h; simp⟩
  | csumBuf => exact ⟨_, exec_csumBuf s, fun u hu => by obtain ⟨-, h⟩ := raiseIf_eq_ok.1 hu; cases h; simp⟩
  | pktConstruct => exact ⟨_, exec_pktConstruct s, fun u hu => by obtain ⟨-, h⟩ := raiseIf_eq_ok.1 hu; cases h; simp⟩
  | pktEncode => exact ⟨_, exec_pktEncode s, fun u hu => by obtain ⟨-, h⟩ := raiseIf_eq_ok.1 hu; cases h; simp⟩
  | pktDecode =>
    exact ⟨_, exec_pktDecode s, fun u hu => by
      obtain ⟨-, h⟩ := raiseIf_eq_ok.1 hu
      obtain ⟨-, h⟩ := raiseIf_eq_ok.1 h
      cases h
      simp⟩
  | pktCsum => exact ⟨_, exec_pktCsum s, fun u hu => by obtain ⟨-, h⟩ := raiseIf_eq_ok.1 hu; cases h; simp⟩

/-- What the pseudocode of a command has written when it raises no error: the state before its completion fields. -/
inductive Succeeds : Instr → State → State → Prop
  | hdrConstruct {s : State} (fits : Config.headerBytes + s.latch.args.length ≤ Config.maxUdpLength) :
    Succeeds .hdrConstruct s ((s.setHdr (s.latch.args.newHeader s.latch.args.length 0#16)).setPktValid false)
  | hdrSetCsum {s : State} (value : Half) : Succeeds (.hdrSetCsum value) s (s.setHdr { s.hdr with csum := value })
  | hdrEncode {s : State} : Succeeds .hdrEncode s (s.memWrite 0 (encHdr s.hdr))
  | hdrDecode {s : State} (enough : Config.headerBytes ≤ s.latch.args.length) :
    Succeeds .hdrDecode s ((s.setHdr (decHdr (s.memRead 0 Config.headerBytes))).setPktValid false)
  | pshEncode {s : State} (n : Half) (fits : s.latch.args.offset + Config.pseudoHeaderBytes ≤ Config.bufBytes) :
    Succeeds (.pshEncode n) s (s.memWrite s.latch.args.offset (psh s.latch.args.srcIp s.latch.args.dstIp n))
  | csumBuf {s : State} (fits : s.latch.args.offset + s.latch.args.length ≤ Config.bufBytes) :
    Succeeds .csumBuf s (s.setCsumOut (checksum (s.memRead s.latch.args.offset s.latch.args.length)))
  | pktConstruct {s : State} (fits : Config.headerBytes + s.latch.args.length ≤ Config.maxUdpLength) :
    Succeeds .pktConstruct s ((s.setHdr (s.latch.args.newHeader s.latch.args.length
      (checksum (packetInput s.latch.args.srcIp s.latch.args.dstIp (s.latch.args.newHeader s.latch.args.length 0#16)
        (s.memRead Config.headerBytes s.latch.args.length))))).setPktValid true)
  | pktEncode {s : State} (valid : s.status.pktValid = true) :
    Succeeds .pktEncode s ((s.memWrite 0 (encHdr s.hdr)).setXlen s.hdr.len)
  | pktDecode {s : State} (enough : Config.headerBytes ≤ s.latch.args.length)
    (whole : (decHdr (s.memRead 0 Config.headerBytes)).len.toNat = s.latch.args.length) :
    Succeeds .pktDecode s ((s.setHdr (decHdr (s.memRead 0 Config.headerBytes))).setPktValid true)
  | pktCsum {s : State} (valid : s.status.pktValid = true) :
    Succeeds .pktCsum s (s.setCsumOut (checksum (packetInput s.latch.args.srcIp s.latch.args.dstIp s.hdr
      (s.memRead Config.headerBytes (s.hdr.len.toNat - Config.headerBytes)))))

/-- Everything a command can do: complete with one of its codes and no other write, or make all its writes and complete with
code 0 (60_exceptions.md R201, R205). -/
theorem exec_cases {i : Instr} {s t : State} (h : exec i s = .next t) :
    (∃ e : CmdError, e.code ∈ commandCodes i ∧ t = s.complete e.code) ∨
    ∃ u, Succeeds i s u ∧ t = u.complete codeOk := by
  cases i with
  | hdrConstruct =>
    obtain ⟨u, hu, rfl⟩ | ⟨e, he, rfl⟩ := finish_cases (exec_hdrConstruct s ▸ h)
    · obtain ⟨hc, ⟨⟩⟩ := raiseIf_eq_ok.1 hu
      exact .inr ⟨_, .hdrConstruct (by simpa using hc), rfl⟩
    · obtain ⟨-, rfl⟩ : _ ∧ _ = e := by simpa using he
      exact .inl ⟨_, by simp [commandCodes, CmdError.code], rfl⟩
  | hdrSetCsum value =>
    rw [exec_hdrSetCsum, finish_ok] at h
    cases h
    exact .inr ⟨_, .hdrSetCsum value, rfl⟩
  | hdrEncode =>
    rw [exec_hdrEncode, finish_ok] at h
    cases h
    exact .inr ⟨_, .hdrEncode, rfl⟩
  | hdrDecode =>
    obtain ⟨u, hu, rfl⟩ | ⟨e, he, rfl⟩ := finish_cases (exec_hdrDecode s ▸ h)
    · obtain ⟨hc, ⟨⟩⟩ := raiseIf_eq_ok.1 hu
      exact .inr ⟨_, .hdrDecode (by simpa using hc), rfl⟩
    · obtain ⟨-, rfl⟩ : _ ∧ _ = e := by simpa using he
      exact .inl ⟨_, by simp [commandCodes, CmdError.code], rfl⟩
  | pshEncode n =>
    obtain ⟨u, hu, rfl⟩ | ⟨e, he, rfl⟩ := finish_cases (exec_pshEncode n s ▸ h)
    · obtain ⟨hc, ⟨⟩⟩ := raiseIf_eq_ok.1 hu
      exact .inr ⟨_, .pshEncode n (by simpa using hc), rfl⟩
    · obtain ⟨-, rfl⟩ : _ ∧ _ = e := by simpa using he
      exact .inl ⟨_, by simp [commandCodes, CmdError.code], rfl⟩
  | csumBuf =>
    obtain ⟨u, hu, rfl⟩ | ⟨e, he, rfl⟩ := finish_cases (exec_csumBuf s ▸ h)
    · obtain ⟨hc, ⟨⟩⟩ := raiseIf_eq_ok.1 hu
      exact .inr ⟨_, .csumBuf (by simpa using hc), rfl⟩
    · obtain ⟨-, rfl⟩ : _ ∧ _ = e := by simpa using he
      exact .inl ⟨_, by simp [commandCodes, CmdError.code], rfl⟩
  | pktConstruct =>
    obtain ⟨u, hu, rfl⟩ | ⟨e, he, rfl⟩ := finish_cases (exec_pktConstruct s ▸ h)
    · obtain ⟨hc, ⟨⟩⟩ := raiseIf_eq_ok.1 hu
      exact .inr ⟨_, .pktConstruct (by simpa using hc), rfl⟩
    · obtain ⟨-, rfl⟩ : _ ∧ _ = e := by simpa using he
      exact .inl ⟨_, by simp [commandCodes, CmdError.code], rfl⟩
  | pktEncode =>
    obtain ⟨u, hu, rfl⟩ | ⟨e, he, rfl⟩ := finish_cases (exec_pktEncode s ▸ h)
    · obtain ⟨hc, ⟨⟩⟩ := raiseIf_eq_ok.1 hu
      exact .inr ⟨_, .pktEncode (by simpa using hc), rfl⟩
    · obtain ⟨-, rfl⟩ : _ ∧ _ = e := by simpa using he
      exact .inl ⟨_, by simp [commandCodes, CmdError.code], rfl⟩
  | pktDecode =>
    obtain ⟨u, hu, rfl⟩ | ⟨e, he, rfl⟩ := finish_cases (exec_pktDecode s ▸ h)
    · obtain ⟨hc, hu⟩ := raiseIf_eq_ok.1 hu
      obtain ⟨hd, ⟨⟩⟩ := raiseIf_eq_ok.1 hu
      exact .inr ⟨_, .pktDecode (by simpa using hc) (by simpa using hd), rfl⟩
    · obtain ⟨-, rfl⟩ | ⟨-, -, rfl⟩ : (_ ∧ _ = e) ∨ (_ ∧ _ ∧ _ = e) := by simpa using he
      · exact .inl ⟨_, by simp [commandCodes, CmdError.code], rfl⟩
      · exact .inl ⟨_, by simp [commandCodes, CmdError.code], rfl⟩
  | pktCsum =>
    obtain ⟨u, hu, rfl⟩ | ⟨e, he, rfl⟩ := finish_cases (exec_pktCsum s ▸ h)
    · obtain ⟨hc, ⟨⟩⟩ := raiseIf_eq_ok.1 hu
      exact .inr ⟨_, .pktCsum (by simpa using hc), rfl⟩
    · obtain ⟨-, rfl⟩ : _ ∧ _ = e := by simpa using he
      exact .inl ⟨_, by simp [commandCodes, CmdError.code], rfl⟩

/-! ### Runs -/

theorem run_succ {M : Host.Core} {s t : M.State} (h : M.step s = .next t) (n : Nat) :
    M.run (n + 1) s = M.run n t := by
  simp only [Host.Core.run, h]

end Sys2Proof.Machine
end

