-- ==== Sys2Proof/Laws/PerInstr.lean ====
section
/-! SUPPORT. The statements made command by command: the word of a command is accepted by the row of its own mnemonic in the
opcode map (30_encoding.md R93, R98). -/

namespace Sys2Proof.Laws.OwnRow

/-- The opcode map has a row of the command's mnemonic, and that row accepts the command's word. -/
def Statement (i : Instr) : Prop := ∃ row ∈ opcodeMap, row.mnemonic = i.mnemonic ∧ row.accepts (encode i) = true

theorem hdrConstruct : Statement .hdrConstruct := ⟨⟨.HDR_CONSTRUCT, 0x00000001#32, 0xFFFFFFFF#32⟩, by decide⟩

theorem hdrSetCsum (value : Half) : Statement (.hdrSetCsum value) :=
  ⟨⟨.HDR_SET_CSUM, 0x00000002#32, 0x0000FFFF#32⟩, by decide, rfl, by
    simp only [OpcodeRow.accepts, encode, Instr.imm16, Instr.mnemonic, Mnemonic.opcode, beq_iff_eq]
    ext i hi
    simp only [BitVec.getElem_and, BitVec.getElem_append]
    interval_cases i <;> simp⟩

theorem hdrEncode : Statement .hdrEncode := ⟨⟨.HDR_ENCODE, 0x00000003#32, 0xFFFFFFFF#32⟩, by decide⟩

theorem hdrDecode : Statement .hdrDecode := ⟨⟨.HDR_DECODE, 0x00000004#32, 0xFFFFFFFF#32⟩, by decide⟩

theorem pshEncode (udpLength : Half) : Statement (.pshEncode udpLength) :=
  ⟨⟨.PSH_ENCODE, 0x00000005#32, 0x0000FFFF#32⟩, by decide, rfl, by
    simp only [OpcodeRow.accepts, encode, Instr.imm16, Instr.mnemonic, Mnemonic.opcode, beq_iff_eq]
    ext i hi
    simp only [BitVec.getElem_and, BitVec.getElem_append]
    interval_cases i <;> simp⟩

theorem csumBuf : Statement .csumBuf := ⟨⟨.CSUM_BUF, 0x00000006#32, 0xFFFFFFFF#32⟩, by decide⟩

theorem pktConstruct : Statement .pktConstruct := ⟨⟨.PKT_CONSTRUCT, 0x00000007#32, 0xFFFFFFFF#32⟩, by decide⟩

theorem pktEncode : Statement .pktEncode := ⟨⟨.PKT_ENCODE, 0x00000008#32, 0xFFFFFFFF#32⟩, by decide⟩

theorem pktDecode : Statement .pktDecode := ⟨⟨.PKT_DECODE, 0x00000009#32, 0xFFFFFFFF#32⟩, by decide⟩

theorem pktCsum : Statement .pktCsum := ⟨⟨.PKT_CSUM, 0x0000000A#32, 0xFFFFFFFF#32⟩, by decide⟩

end Sys2Proof.Laws.OwnRow
end

