-- ==== Sys2Proof/Laws/Platform.lean ====
section
/-! SUPPORT. Several blocks (20_memory.md R84): what a step of one block can do to a platform, which block an address reaches,
and that no step changes a block's number (logs 1, 11). -/

namespace Sys2Proof.Machine

/-! ### The block's number -/

theorem exec_pbufBlock {i : Instr} {s t : State} (h : exec i s = .next t) : t.pbufBlock = s.pbufBlock := by
  obtain ⟨e, -, rfl⟩ | ⟨u, hu, rfl⟩ := exec_cases h
  · rfl
  · cases hu <;> rfl

theorem hostWriteEffect_pbufBlock (s : State) (width offset : Nat) (v : Word) :
    (s.hostWriteEffect width offset v).pbufBlock = s.pbufBlock := by
  obtain ⟨-, h⟩ | ⟨-, r, -, h⟩ | ⟨-, -, h⟩ := hostWriteEffect_cases s width offset v <;> rw [h]
  · unfold State.hostWritePbuf
    split_ifs <;> rfl
  · cases r <;> simp only [State.writeReg, State.writeCmd]
    split_ifs <;> rfl

/-- No step of either agent or of the reset input changes the block's number. -/
theorem step_pbufBlock {s t : State} (h : step s = .next t) : t.pbufBlock = s.pbufBlock := by
  unfold step at h
  rw [← State.popEvent_pbufBlock s]
  generalize s.nextEvent = e at h
  generalize s.popEvent = u at h ⊢
  cases e with
  | hostRead width offset =>
    obtain ⟨-, rfl⟩ := hostRead_cases h
    rfl
  | hostWrite width offset v =>
    obtain ⟨-, rfl⟩ := hostWrite_cases h
    exact hostWriteEffect_pbufBlock _ _ _ _
  | reset asserted =>
    obtain rfl : u.driveReset asserted = t := by simpa [perform] using h
    unfold State.driveReset
    split_ifs <;> rfl
  | engine =>
    rw [perform] at h
    obtain ⟨-, g⟩ | ⟨-, -, -, g⟩ | ⟨-, -, -, g⟩ := engineStep_cases u <;> rw [g] at h
    · cases h
      rfl
    · cases h
      rfl
    · unfold completeLatched at h
      split at h
      · exact exec_pbufBlock h
      · cases h
        rfl

/-! ### One step of one block -/

/-- A step of one block is nothing, where the platform has no such block, or that block's own step and no other change. -/
theorem Platform.onBlock_cases {p q : Platform} {k : Nat} {f : State → Host.Outcome State Fault Refusal}
    (h : p.onBlock k f = .next q) : (p[k]? = none ∧ q = p) ∨
    ∃ b s, p[k]? = some b ∧ f b.state = .next s ∧ q = p.set k { b with state := s } := by
  unfold Platform.onBlock at h
  split at h
  · cases h
    exact .inl ⟨‹_›, rfl⟩
  · split at h
    · cases h
      exact .inr ⟨_, _, ‹_›, ‹_›, rfl⟩
    · cases h
    · cases h

theorem Platform.onBlock_next {p : Platform} {k : Nat} {b : Block} {f : State → Host.Outcome State Fault Refusal} {s : State}
    (hb : p[k]? = some b) (hf : f b.state = .next s) : p.onBlock k f = .next (p.set k { b with state := s }) := by
  simp only [Platform.onBlock, hb, hf]

theorem Platform.onBlock_refused {p : Platform} {k : Nat} {b : Block} {f : State → Host.Outcome State Fault Refusal}
    {r : Refusal} (hb : p[k]? = some b) (hf : f b.state = .refused r) : p.onBlock k f = .refused r := by
  simp only [Platform.onBlock, hb, hf]

/-! ### Which block an address reaches (20_memory.md R63, log 11) -/

theorem Block.offset?_eq_some {b : Block} {address o : Nat} : b.offset? address = some o ↔
    (b.base ≤ address ∧ address < b.base + Config.windowBytes) ∧ address - b.base = o := by
  unfold Block.offset?
  split_ifs with h <;> simp [h]

theorem Block.offset?_eq_none {b : Block} {address : Nat} : b.offset? address = none ↔
    ¬ (b.base ≤ address ∧ address < b.base + Config.windowBytes) := by
  unfold Block.offset?
  split_ifs with h <;> simp [h]

/-- An address reaches the first block whose window holds it, at the offset from that block's base. -/
theorem Platform.route_eq_some {p : Platform} {address k o : Nat} : p.route address = some (k, o) ↔
    ∃ b, p[k]? = some b ∧ b.offset? address = some o ∧
      ∀ j b', j < k → p[j]? = some b' → b'.offset? address = none := by
  induction p generalizing k with
  | nil => simp [Platform.route]
  | cons c p ih =>
    unfold Platform.route
    cases hc : c.offset? address with
    | some o' =>
      cases k with
      | zero => simp [hc]
      | succ k =>
        simp only [Option.some.injEq, Prod.mk.injEq, Nat.zero_ne_add_one, false_and, false_iff, not_exists, not_and]
        intro b _ _ h
        have h0 := h 0 c (Nat.succ_pos k) rfl
        rw [hc] at h0
        cases h0
    | none =>
      cases k with
      | zero => simp [hc]
      | succ k =>
        simp only [Option.map_eq_some_iff, Prod.mk.injEq, Prod.exists, Nat.add_right_cancel_iff, List.getElem?_cons_succ]
        constructor
        · rintro ⟨k', o', h, rfl, rfl⟩
          obtain ⟨b, h1, h2, h3⟩ := ih.1 h
          refine ⟨b, h1, h2, fun j b' hj hb' => ?_⟩
          cases j with
          | zero => simp only [List.getElem?_cons_zero, Option.some.injEq] at hb'; exact hb' ▸ hc
          | succ j => exact h3 j b' (Nat.lt_of_succ_lt_succ hj) (by simpa using hb')
        · rintro ⟨b, h1, h2, h3⟩
          exact ⟨k, o, ih.2 ⟨b, h1, h2, fun j b' hj hb' => h3 (j + 1) b' (Nat.succ_lt_succ hj) (by simpa using hb')⟩, rfl, rfl⟩

theorem Platform.route_eq_none {p : Platform} {address : Nat} (h : ∀ b ∈ p, b.offset? address = none) :
    p.route address = none := by
  induction p with
  | nil => rfl
  | cons c p ih =>
    simp only [List.forall_mem_cons] at h
    simp [Platform.route, h.1, ih h.2]

end Sys2Proof.Machine
end

