-- ==== Sys2Proof/Laws/Script.lean ====
section
/-! SUPPORT. Once for each operation of a host script's run, all it can do. -/

namespace Sys2Proof.Machine

theorem ScriptRun.onBlock_next {r : ScriptRun} {e : Event} {t : State} (h : perform e r.block = .next t)
    (next : State → ScriptRun) : r.onBlock e next = .next (next t) := by simp [ScriptRun.onBlock, h]

theorem ScriptRun.onBlock_refused {r : ScriptRun} {e : Event} {f : Refusal} (h : perform e r.block = .refused f)
    (next : State → ScriptRun) : r.onBlock e next = .refused f := by simp [ScriptRun.onBlock, h]

theorem ScriptRun.onBlock_cases {r r' : ScriptRun} {e : Event} {next : State → ScriptRun}
    (h : r.onBlock e next = .next r') : ∃ t, perform e r.block = .next t ∧ r' = next t := by
  unfold ScriptRun.onBlock at h
  split at h
  · next t ht => exact ⟨t, ht, by simpa using h.symm⟩
  · cases h
  · cases h

@[simp] theorem ScriptRun.hostTurn_nil (ok : Bool) (s : State) : ScriptRun.hostTurn ⟨[], ok, s⟩ = .next ⟨[], ok, s⟩ := rfl

/-- The host's step when its access is performed. -/
theorem ScriptRun.hostTurn_cons {op : ScriptOp} {s t : State} (h : perform op.event s = .next t) (rest : List ScriptOp)
    (ok : Bool) : ScriptRun.hostTurn ⟨op :: rest, ok, s⟩ =
      .next ⟨if op.again t.busData then op :: rest else rest, ok && op.asStated t.busData, t⟩ :=
  ScriptRun.onBlock_next (r := ⟨op :: rest, ok, s⟩) h _

@[simp] theorem ScriptRun.run_nil (r : ScriptRun) : ScriptRun.run [] r = .next r := rfl

theorem ScriptRun.run_cons {r r' : ScriptRun} {turn : Turn} (h : r.turn turn = .next r') (turns : List Turn) :
    ScriptRun.run (turn :: turns) r = ScriptRun.run turns r' := by simp only [ScriptRun.run, h]

theorem ScriptRun.events_cons {r r' : ScriptRun} {turn : Turn} (h : r.turn turn = .next r') (turns : List Turn) :
    ScriptRun.events (turn :: turns) r = (r.event? turn).toList ++ ScriptRun.events turns r' := by
  simp only [ScriptRun.events, h]

theorem ScriptRun.run_cons_cases {r u : ScriptRun} {turn : Turn} {turns : List Turn}
    (h : ScriptRun.run (turn :: turns) r = .next u) : ∃ r', r.turn turn = .next r' ∧ ScriptRun.run turns r' = .next u := by
  unfold ScriptRun.run at h
  split at h
  · next r' hr => exact ⟨r', hr, h⟩
  · cases h
  · cases h

/-- Everything a turn can do: nothing, when the host's script is done, or one event of the block. -/
theorem ScriptRun.turn_cases {r r' : ScriptRun} {turn : Turn} (h : r.turn turn = .next r') :
    (r.event? turn = none ∧ r' = r) ∨ ∃ e, r.event? turn = some e ∧ perform e r.block = .next r'.block := by
  cases turn with
  | host =>
    obtain ⟨_ | ⟨op, rest⟩, ok, s⟩ := r
    · exact .inl ⟨rfl, by simpa [ScriptRun.turn] using h.symm⟩
    · obtain ⟨t, ht, rfl⟩ := ScriptRun.onBlock_cases h
      exact .inr ⟨_, rfl, ht⟩
  | engine =>
    obtain ⟨t, ht, rfl⟩ := ScriptRun.onBlock_cases h
    exact .inr ⟨_, rfl, ht⟩
  | reset b => exact .inr ⟨_, rfl, by cases h; rfl⟩

/-- The polling loop goes round exactly while the STATUS it read has BUSY set. -/
theorem ScriptOp.poll_again (s : State) : ScriptOp.again .poll (some (s.readReg .status)) = s.status.busy := by
  simp only [ScriptOp.again, State.readReg, Status.toWord, Option.getD_some, BitVec.getLsbD_append]
  simp

/-- A pass of the polling loop: the read, and the loop again exactly while BUSY = 1 (30_encoding.md R99). -/
theorem ScriptRun.hostTurn_poll {s : State} (h : s.resetAsserted = false) (rest : List ScriptOp) (ok : Bool) :
    ScriptRun.hostTurn ⟨.poll :: rest, ok, s⟩ =
      .next ⟨if s.status.busy then .poll :: rest else rest, ok, { s with busData := some (s.readReg .status) }⟩ := by
  have hp : perform (ScriptOp.event .poll) s = .next { s with busData := some (s.readReg .status) } := by
    simp [perform, ScriptOp.event, hostRead, State.refusal?, h, Reg.offset, Config.windowBytes, legalAccess,
      Config.pbufWindow, State.hostReadValue, Reg.ofOffset]
  rw [ScriptRun.hostTurn_cons hp]
  simp [ScriptOp.poll_again, ScriptOp.asStated]

/-! ### What drives the block does not change what an event does -/

/-- A command does not depend on the engine's count, the schedule or the last read value, and leaves the last two. -/
theorem exec_drive {i : Instr} {s t : State} (h : exec i s = .next t) (n : Nat) (l : List Event) (b : Option Word) :
    exec i { s with engineLeft := n, schedule := l, busData := b } = .next { t with schedule := l, busData := b } := by
  cases i <;>
    simp only [exec, execHdrConstruct, execHdrSetCsum, execHdrEncode, execHdrDecode, execPshEncode, execCsumBuf,
      execPktConstruct, execPktEncode, execPktDecode, execPktCsum, raiseIf] at h ⊢ <;>
    (try rw [State.memRead_congr (t := { s with engineLeft := n, schedule := l, busData := b }) (s := s) (fun _ _ => rfl)]) <;>
    (try split_ifs at h ⊢) <;> simp only [finish_ok, finish_error] at h ⊢ <;> cases h <;> rfl

theorem completeLatched_drive {s t : State} (h : completeLatched s = .next t) (n : Nat) (l : List Event) (b : Option Word) :
    completeLatched { s with engineLeft := n, schedule := l, busData := b } = .next { t with schedule := l, busData := b } := by
  unfold completeLatched at h ⊢
  split at h
  · next i hd =>
    simp only [hd]
    exact exec_drive h n l b
  · next e hd =>
    simp only [hd, finish_error] at h ⊢
    cases h
    rfl

/-- A completion leaves the schedule and the last read value. -/
theorem completeLatched_keeps {s t : State} (h : completeLatched s = .next t) :
    t.schedule = s.schedule ∧ t.busData = s.busData := by
  have h' := (completeLatched_drive h s.engineLeft s.schedule s.busData).symm.trans h
  simp only [Host.Outcome.next.injEq] at h'
  exact h' ▸ ⟨rfl, rfl⟩

/-- No event depends on the rest of the schedule, and none changes it. -/
theorem perform_schedule {e : Event} {s t : State} (h : perform e s = .next t) (l : List Event) :
    perform e { s with schedule := l } = .next { t with schedule := l } := by
  cases e with
  | hostRead width offset =>
    obtain ⟨hr, rfl⟩ := hostRead_cases h
    show hostRead width offset { s with schedule := l } = _
    unfold hostRead
    rw [show State.refusal? { s with schedule := l } width offset = none from hr]
    rfl
  | hostWrite width offset v =>
    obtain ⟨hr, rfl⟩ := hostWrite_cases h
    show hostWrite width offset v { s with schedule := l } = _
    unfold hostWrite
    rw [show State.refusal? { s with schedule := l } width offset = none from hr]
    simp only [Host.Outcome.next.injEq]
    unfold State.hostWriteEffect
    split_ifs
    · unfold State.hostWritePbuf
      simp only
      split_ifs <;> rfl
    · cases Reg.ofOffset offset with
      | none => rfl
      | some r =>
        cases r with
        | cmd =>
          show State.writeCmd _ v = { State.writeCmd s v with schedule := l }
          unfold State.writeCmd
          simp only
          split_ifs <;> rfl
        | _ => rfl
  | engine =>
    show engineStep { s with schedule := l } = _
    replace h : engineStep s = .next t := h
    unfold engineStep at h ⊢
    simp only
    split_ifs at h ⊢
    · cases h; rfl
    · cases h; rfl
    · rw [show ({ t with schedule := l } : State) = { t with schedule := l, busData := s.busData } by
        rw [← (completeLatched_keeps h).2]]
      exact completeLatched_drive h s.engineLeft l s.busData
  | reset b =>
    cases h
    show Host.Outcome.next _ = _
    unfold State.driveReset
    simp only
    split_ifs <;> rfl

/-- A step takes the first event off the schedule and performs it on the block. -/
theorem step_schedule {e : Event} {s t : State} (h : perform e s = .next t) (l : List Event) :
    step { s with schedule := e :: l } = .next { t with schedule := l } := perform_schedule h l

end Sys2Proof.Machine
end

