-- ==== Sys2Proof/Tests/Slice0.lean ====
section
/-! SUPPORT. Tests of the model, each against a value the spec states (30_encoding.md, 95_test_vectors.md), and a witness for
the hypotheses of every obligation that has some. -/

namespace Sys2Proof.Machine.Tests

/-! ### Helpers -/

/-- The block after reset with these operands. -/
def withArgs (a : Operands) : State := { State.reset with args := a }

/-- The block after reset with these latched operands. -/
def latched (a : Operands) : State := { State.reset with latch := ⟨0#32, a⟩ }

/-- The block after reset with a current packet of this header. -/
def withPacket (h : Header) : State :=
  { State.reset with hdr := h, status := { State.reset.status with pktValid := true } }

/-- The block with a command in flight that takes n more engine steps. -/
def busyWith (i : Instr) (n : Nat) : State :=
  { State.reset with
    cmd := encode i
    latch := ⟨encode i, Operands.zero⟩
    engineLeft := n
    status := { State.reset.status with busy := true } }

/-- The next state of a step, if there is one. -/
def stateOf (r : Host.Outcome State Fault Refusal) : Option State :=
  match r with
  | .next t => some t
  | .fault _ | .refused _ => none

/-- The reason of a refused step, if it was refused. -/
def refusalOf (r : Host.Outcome State Fault Refusal) : Option Refusal :=
  match r with
  | .refused r => some r
  | .next _ | .fault _ => none

/-- One step that runs the command word w. -/
def after (w : Nat) (s : State) : Option State := stateOf (step (s.withFetchWord 32 w))

/-- HDR_PORTS, HDR_LENCSUM and STATUS, as a host reads them. -/
def headerView (t : State) : List Word := [t.readReg .hdrPorts, t.readReg .hdrLencsum, t.readReg .status]

/-- What a host read returns. -/
def readOf (r : Host.Outcome State Fault Refusal) : Option Word := (stateOf r).bind State.busData

/-- The end of a script's run, if no access was refused. -/
def runOf (turns : List Turn) (r : ScriptRun) : Option ScriptRun :=
  match ScriptRun.run turns r with
  | .next u => some u
  | .fault _ | .refused _ => none

/-- The operands of V-P1: 127.0.0.1:9001 to 127.0.0.1:9002, 4 bytes. -/
def pingArgs : Operands := ⟨0x7F000001#32, 0x7F000001#32, 0x2329232A#32, 4#32, 0#32⟩

/-- The wire packet of V-P1. -/
def pingWire : List Byte :=
  [0x23#8, 0x29#8, 0x23#8, 0x2A#8, 0x00#8, 0x0C#8, 0x1C#8, 0xF0#8, 0x50#8, 0x49#8, 0x4E#8, 0x47#8]

/-- The header of V-P1. -/
def pingHeader : Header := ⟨0x2329#16, 0x232A#16, 0x000C#16, 0x1CF0#16⟩

/-! ### Decode: words written out from 30_encoding.md R90 and R93 -/

-- IMM16 = 0, RSV = 0, OP = 0x01
theorem test_decode_hdr_construct : decode 0b0000000000000000_00000000_00000001#32 = .ok .hdrConstruct := by decide
-- IMM16 = 0x1CF0, OP = 0x02 (V-H7)
theorem test_decode_hdr_set_csum : decode 0b0001110011110000_00000000_00000010#32 = .ok (.hdrSetCsum 0x1CF0#16) := by
  decide
theorem test_decode_hdr_encode : decode 0b0000000000000000_00000000_00000011#32 = .ok .hdrEncode := by decide
theorem test_decode_hdr_decode : decode 0b0000000000000000_00000000_00000100#32 = .ok .hdrDecode := by decide
-- IMM16 = 12, OP = 0x05 (V-S1)
theorem test_decode_psh_encode : decode 0b0000000000001100_00000000_00000101#32 = .ok (.pshEncode 12#16) := by decide
theorem test_decode_csum_buf : decode 0b0000000000000000_00000000_00000110#32 = .ok .csumBuf := by decide
theorem test_decode_pkt_construct : decode 0b0000000000000000_00000000_00000111#32 = .ok .pktConstruct := by decide
theorem test_decode_pkt_encode : decode 0b0000000000000000_00000000_00001000#32 = .ok .pktEncode := by decide
theorem test_decode_pkt_decode : decode 0b0000000000000000_00000000_00001001#32 = .ok .pktDecode := by decide
theorem test_decode_pkt_csum : decode 0b0000000000000000_00000000_00001010#32 = .ok .pktCsum := by decide
-- V-E1 to V-E6
theorem test_decode_illegal :
    [0x00000000#32, 0x0000000B#32, 0x000000FF#32, 0x00000107#32, 0x00010001#32, 0x00000102#32].map decode =
      [.error .reservedOpcode, .error .reservedOpcode, .error .reservedOpcode, .error .reservedByteSet,
       .error .immediateSet, .error .reservedByteSet] := by decide
-- V-E7, V-E8
theorem test_decode_full_immediates :
    [0xFFFF0002#32, 0x00FF0005#32].map decode = [.ok (.hdrSetCsum 0xFFFF#16), .ok (.pshEncode 255#16)] := by decide
theorem test_decodeTableWord : decodeTableWord 32 0x000D0005 = some (.pshEncode 13#16) ∧ decodeTableWord 32 0 = none := by
  decide

/-! ### WellFormed: an ill-formed line for each check of R98 -/

-- an operand above 0xFFFF
theorem test_refuses_wide_operand : (AsmLine.mk .HDR_SET_CSUM (some 0x10000)).wellFormed = false := by decide
-- an operand given to a command of IMM16 = 0
theorem test_refuses_needless_operand : (AsmLine.mk .CSUM_BUF (some 0)).wellFormed = false := by decide
-- an immediate command without its operand
theorem test_refuses_missing_operand : (AsmLine.mk .PSH_ENCODE none).wellFormed = false := by decide
-- `HDR_SET_CSUM 0x1CF0` is 0x1CF00002 (V-H7); a refused line has no word
theorem test_assembles : (AsmLine.mk .HDR_SET_CSUM (some 0x1CF0)).assemble = some 0x1CF00002#32 ∧
    (AsmLine.mk .PKT_CSUM none).assemble = some 0x0000000A#32 ∧ (AsmLine.mk .PKT_CSUM (some 1)).assemble = none := by decide

/-! ### Header commands (95_test_vectors.md section 2) -/

-- V-H1
theorem test_hdr_construct : (after 0x00000001 (withArgs ⟨0#32, 0#32, 0x2329232A#32, 4#32, 0#32⟩)).map headerView =
    some [0x2329232A#32, 0x000C0000#32, 0x00000002#32] := by decide
-- V-H6: no wrap
theorem test_hdr_construct_no_wrap : (after 0x00000001 (withArgs ⟨0#32, 0#32, 0x2329232A#32, 0xFFFFFFFF#32, 0#32⟩)).map headerView =
    some [0#32, 0#32, 0x00000116#32] := by decide
-- V-H7
theorem test_hdr_set_csum : (after 0x1CF00002 { State.reset with hdr := ⟨0x2329#16, 0x232A#16, 0x000C#16, 0#16⟩ }).map headerView =
    some [0x2329232A#32, 0x000C1CF0#32, 0x00000002#32] := by decide
-- V-H8
theorem test_hdr_encode : (after 0x00000003 { State.reset with hdr := pingHeader }).map
    (fun t => (t.memRead 0 8, t.xlen, t.pbuf.length)) =
      some ([0x23#8, 0x29#8, 0x23#8, 0x2A#8, 0x00#8, 0x0C#8, 0x1C#8, 0xF0#8], 0#16, 8) := by decide
-- V-H9d: PKT_VALID is cleared
theorem test_hdr_decode : (after 0x00000004 (((withArgs ⟨0#32, 0#32, 0#32, 8#32, 0#32⟩).memWrite 0 pingWire).setPktValid true)).map
    headerView = some [0x2329232A#32, 0x000C1CF0#32, 0x00000002#32] := by decide
-- S6
theorem test_hdr_decode_truncated : (after 0x00000004 (withArgs ⟨0#32, 0#32, 0#32, 7#32, 0#32⟩)).map headerView =
    some [0#32, 0#32, 0x00000216#32] := by decide

/-! ### Pseudo-header (section 3) -/

-- V-S2: the last 12 bytes of PBUF
theorem test_psh_encode : (after 0x000D0005 (withArgs ⟨0x0A000001#32, 0xC0A80102#32, 0#32, 0#32, 0xFFF4#32⟩)).map
    (fun t => (t.memRead 0xFFF4 12, t.readReg .status)) =
      some ([0x0A#8, 0x00#8, 0x00#8, 0x01#8, 0xC0#8, 0xA8#8, 0x01#8, 0x02#8, 0x00#8, 0x11#8, 0x00#8, 0x0D#8], 2#32) := by
  decide
-- V-S3, V-S4: past the end, and no wrap
theorem test_psh_encode_bad_range :
    (after 0x000C0005 (withArgs ⟨0#32, 0#32, 0#32, 0#32, 0xFFF5#32⟩)).map (fun t => (t.pbuf, t.readReg .status)) =
      some ([], 0x00000616#32) ∧
    (after 0x000C0005 (withArgs ⟨0#32, 0#32, 0#32, 0#32, 0xFFFFFFFC#32⟩)).map (fun t => t.status.errCode) = some 6#4 := by
  decide

/-! ### Checksum (section 4) -/

-- V-C1 to V-C10, V-C13
theorem test_checksum : [[], [0x00#8, 0x00#8], [0xFF#8, 0xFF#8], [0x01#8], [0x01#8, 0x02#8, 0x03#8],
      [0xFF#8, 0xFF#8, 0xFF#8, 0xFF#8, 0x00#8, 0x01#8],
      [0x00#8, 0x01#8, 0xF2#8, 0x03#8, 0xF4#8, 0xF5#8, 0xF6#8, 0xF7#8]].map checksum =
    [0xFFFF#16, 0xFFFF#16, 0xFFFF#16, 0xFEFF#16, 0xFBFD#16, 0xFFFE#16, 0x220D#16] := by decide
-- V-C10: an odd address and an odd length
theorem test_csum_buf : (after 0x00000006 ((withArgs ⟨0#32, 0#32, 0#32, 3#32, 1#32⟩).memWrite 0
    [0x23#8, 0x29#8, 0x23#8, 0x2A#8])).map (fun t => (t.readReg .csumOut, t.readReg .status)) =
      some (0x0000ACDC#32, 2#32) := by decide
-- V-C17, V-C18: no wrap; the empty range at the end
theorem test_csum_buf_range :
    (after 0x00000006 (withArgs ⟨0#32, 0#32, 0#32, 1#32, 0xFFFFFFFF#32⟩)).map (fun t => (t.csumOut, t.status.errCode)) =
      some (0#16, 6#4) ∧
    (after 0x00000006 (withArgs ⟨0#32, 0#32, 0#32, 0#32, 65536#32⟩)).map (fun t => (t.csumOut, t.status.errCode)) =
      some (0xFFFF#16, 0#4) := by decide

/-! ### Packets (section 5) -/

-- V-P1, V-P12: PBUF[0..8) is not written
theorem test_pkt_construct : (after 0x00000007 ((withArgs pingArgs).memWrite 8 [0x50#8, 0x49#8, 0x4E#8, 0x47#8])).map
    (fun t => (headerView t, t.pbuf.length)) = some ([0x2329232A#32, 0x000C1CF0#32, 0x0000000A#32], 4) := by decide
-- V-P4: the zero rule
theorem test_pkt_construct_zero_rule : (after 0x00000007 (withArgs ⟨0#32, 0#32, 0xFFDE0000#32, 0#32, 0#32⟩)).map
    (fun t => t.readReg .hdrLencsum) = some 0x0008FFFF#32 := by decide
-- V-P14: the checksum as it stands, the payload not touched
theorem test_pkt_encode : (after 0x00000008 ((withPacket { pingHeader with csum := 0#16 }).memWrite 8
    [0x50#8, 0x49#8, 0x4E#8, 0x47#8])).map (fun t => (t.memRead 0 12, t.readReg .xlen)) =
      some ([0x23#8, 0x29#8, 0x23#8, 0x2A#8, 0x00#8, 0x0C#8, 0x00#8, 0x00#8, 0x50#8, 0x49#8, 0x4E#8, 0x47#8], 12#32) := by
  decide
-- V-P13
theorem test_pkt_encode_no_packet : (after 0x00000008 State.reset).map (fun t => (t.readReg .status, t.xlen, t.pbuf)) =
    some (0x00000716#32, 0#16, []) := by decide
-- V-P17
theorem test_pkt_decode : (after 0x00000009 ((withArgs ⟨0#32, 0#32, 0#32, 12#32, 0#32⟩).memWrite 0 pingWire)).map headerView =
    some [0x2329232A#32, 0x000C1CF0#32, 0x0000000A#32] := by decide
-- V-P19, V-P23: the byte count is tested first; then the length field
theorem test_pkt_decode_errors :
    (after 0x00000009 ((withArgs ⟨0#32, 0#32, 0#32, 0#32, 0#32⟩).memWrite 0 pingWire)).map headerView =
      some [0#32, 0#32, 0x00000316#32] ∧
    (after 0x00000009 ((withArgs ⟨0#32, 0#32, 0#32, 13#32, 0#32⟩).memWrite 0 pingWire)).map headerView =
      some [0#32, 0#32, 0x00000416#32] := by decide
-- V-P29: the stored checksum is not in the input
theorem test_pkt_csum : (after 0x0000000A ({ withPacket { pingHeader with csum := 0x1234#16 } with args := pingArgs }.memWrite 0
    pingWire)).map (fun t => (t.readReg .csumOut, t.readReg .hdrLencsum)) = some (0x00001CF0#32, 0x000C1234#32) := by decide
-- V-P31
theorem test_pkt_csum_no_packet : (after 0x0000000A State.reset).map (fun t => (t.csumOut, t.status.errCode)) =
    some (0#16, 7#4) := by decide

/-! ### Status, interrupt, host accesses, reset (section 6) -/

-- V-E1: an illegal word completes with IllegalCommand
theorem test_illegal_command : (after 0x00000000 State.reset).map headerView = some [0#32, 0#32, 0x00000516#32] := by decide
-- V-E16, V-E17, V-E18
theorem test_status_bits :
    (⟨true, false, false, true, false, 7#4⟩ : Status).toWord = 0x00000715#32 ∧
    (⟨false, true, false, true, false, 0#4⟩ : Status).toWord = 0x00000012#32 ∧
    ((⟨false, true, false, true, false, 0#4⟩ : Status).clearBits 0x00000012#32).toWord = 0#32 := by decide
-- V-E12, V-E14: IE masks DONE
theorem test_irq :
    ({ State.reset with ctrlIe := true, status := ⟨false, true, false, true, false, 7#4⟩ } : State).irq = true ∧
    ({ State.reset with ctrlIe := false, status := ⟨false, true, false, true, false, 7#4⟩ } : State).irq = false := by decide
-- V-E20 to V-E22: BUSY refuses CMD and PBUF
theorem test_busy_refuses :
    (stateOf (hostWrite 32 0x0C 1#32 (busyWith .csumBuf 2))).map (fun t => (t.readReg .cmd, t.readReg .status)) =
      some (0x00000006#32, 0x00000021#32) ∧
    (stateOf (hostWrite 8 0x10005 9#32 (busyWith .csumBuf 2))).map (fun t => (t.pbuf, t.readReg .status)) =
      some ([], 0x00000021#32) ∧
    readOf (hostRead 32 0x10000 ((busyWith .csumBuf 2).memWrite 0 pingWire)) = some 0#32 := by decide
-- V-E25 to V-E27
theorem test_reset_reads :
    [0x00, 0x04, 0x08, 0x0C, 0x10, 0x14, 0x18, 0x1C, 0x20, 0x24, 0x28, 0x2C, 0x30, 0x34, 0x40].map
      (fun o => readOf (hostRead 32 o State.reset)) =
    [some 0x55445031#32, some 0#32, some 0#32, some 0#32, some 0#32, some 0#32, some 0#32, some 0#32, some 0#32, some 0#32,
     some 0#32, some 0#32, some 0#32, some 0#32, some 0#32] := by decide
-- PBUF lane order
theorem test_lanes :
    readOf (hostRead 32 0x10000 (State.reset.memWrite 0 pingWire)) = some 0x2329232A#32 ∧
    readOf (hostRead 16 0x10000 (State.reset.memWrite 0 pingWire)) = some 0x2329#32 ∧
    readOf (hostRead 16 0x10002 (State.reset.memWrite 0 pingWire)) = some 0x232A#32 ∧
    readOf (hostRead 8 0x10001 (State.reset.memWrite 0 pingWire)) = some 0x29#32 ∧
    (stateOf (hostWrite 32 0x10004 0x000C1CF0#32 State.reset)).map (fun t => t.memRead 4 4) =
      some [0x00#8, 0x0C#8, 0x1C#8, 0xF0#8] := by decide
-- 20_memory.md R64, R65, 70_reset_and_hazards.md R230
theorem test_refused_accesses :
    refusalOf (hostRead 16 0x04 State.reset) = some .busError ∧ refusalOf (hostWrite 32 0x10002 0#32 State.reset) = some .busError ∧
    refusalOf (hostRead 32 0x20000 State.reset) = some .outsideWindow ∧
    refusalOf (hostRead 32 0x00 { State.reset with resetAsserted := true }) = some .accessDuringReset := by decide
-- 30_encoding.md R99: what RUN and SBYTES mean
theorem test_script : scriptOps [.SBYTES 8 [0x50#8, 0x49#8], .RUN 0x00000007#32] =
    [.write 8 0x10008 0x50#32, .write 8 0x10009 0x49#32, .write 32 0x0C 7#32, .poll] := by decide
-- 30_encoding.md R99: WAIT goes round while the read finds BUSY = 1, and ends at the first read that does not
theorem test_wait_loops :
    (runOf [.host, .host] (.start [.WAIT] (busyWith .hdrEncode 1))).map (fun r => (r.todo, r.block.busData)) =
      some ([.poll], some 0x00000001#32) ∧
    (runOf [.host, .engine, .host] (.start [.WAIT] (busyWith .hdrEncode 1))).map (fun r => (r.todo, r.block.busData)) =
      some ([], some 0x00000002#32) := by decide
-- 30_encoding.md R99, 10_state.md R40: the value a reading line states
theorem test_stated_values :
    (runOf [.host] (.start [.R .id 0x55445031#32] State.reset)).map ScriptRun.asStated = some true ∧
    (runOf [.host] (.start [.R .id 0#32] State.reset)).map ScriptRun.asStated = some false ∧
    (runOf [.host] (.start [.LB 3 0x2A#8] (State.reset.memWrite 0 pingWire))).map ScriptRun.asStated = some true ∧
    (runOf [.host] (.start [.LH 2 0x2329#16] (State.reset.memWrite 0 pingWire))).map ScriptRun.asStated = some false ∧
    (runOf [.host] (.start [.LW 4 0x000C1CF0#32] (State.reset.memWrite 0 pingWire))).map ScriptRun.asStated = some true := by
  decide
-- 20_memory.md R84: two blocks, each in its own window
theorem test_platform :
    (Platform.reset [1, 4]).route 0x80008 = some (1, 8) ∧ (Platform.reset [1, 4]).route 0x3FFFF = some (0, 0x1FFFF) ∧
    (Platform.reset [1, 4]).route 0x40000 = none ∧ (Platform.reset [1, 4]).map (fun b => b.state.pbufBlock) = [1, 4] := by
  decide

/-! ### Witnesses: states and operands that meet the hypotheses of each obligation, at the edges of its clauses -/

theorem witness_CommandWordIsTheEncodingOfItsCommand :
    decode 0xFFFF0002#32 = .ok (.hdrSetCsum 0xFFFF#16) ∧ decode 0x0000000A#32 = .ok .pktCsum := by decide

theorem witness_DecodeFollowsTheOpcodeMap :
    (⟨.PSH_ENCODE, 0x00000005#32, 0x0000FFFF#32⟩ : OpcodeRow) ∈ opcodeMap ∧
    (⟨.PSH_ENCODE, 0x00000005#32, 0x0000FFFF#32⟩ : OpcodeRow).accepts 0xFFFF0005#32 = true ∧
    decode 0xFFFF0005#32 = .ok (.pshEncode 0xFFFF#16) := by decide

theorem witness_ExactlyTheseWordsAreIllegal :
    ((∃ e, decode 0x00000000#32 = .error e) ∧ (∃ e, decode 0x0000000B#32 = .error e) ∧
      (∃ e, decode 0x000000FF#32 = .error e) ∧ (∃ e, decode 0x00000102#32 = .error e) ∧
      (∃ e, decode 0x0000FF05#32 = .error e) ∧ (∃ e, decode 0x0001000A#32 = .error e)) ∧
    ((¬ ∃ e, decode 0x00000001#32 = .error e) ∧ ¬ ∃ e, decode 0x0000000A#32 = .error e) ∧
    State.reset.resetAsserted = false ∧ State.reset.status.busy = false ∧ State.reset.latch.cmd = 0x00000000#32 :=
  ⟨⟨⟨_, rfl⟩, ⟨_, rfl⟩, ⟨_, rfl⟩, ⟨_, rfl⟩, ⟨_, rfl⟩, ⟨_, rfl⟩⟩,
    ⟨fun ⟨_, h⟩ => (nomatch h), fun ⟨_, h⟩ => (nomatch h)⟩, rfl, rfl, rfl⟩

theorem witness_AssemblerAcceptsExactlyTheSyntax :
    (AsmLine.mk .HDR_SET_CSUM (some 0xFFFF)).assemble = some 0xFFFF0002#32 ∧
    (AsmLine.mk .HDR_SET_CSUM (some 0x10000)).assemble = none ∧
    (AsmLine.mk .HDR_ENCODE none).assemble = some 0x00000003#32 := by decide

theorem witness_StepRunsTheDecodedCommand :
    (busyWith .pktCsum 1).nextEvent = .engine ∧ (busyWith .pktCsum 1).resetAsserted = false ∧
    (busyWith .pktCsum 1).status.busy = true ∧ (busyWith .pktCsum 1).engineLeft ≤ 1 ∧
    decode (busyWith .pktCsum 1).latch.cmd = .ok .pktCsum := by decide

/-- Two engine steps to go: the host reads STATUS and writes ARG_LEN between them. -/
def waiting : State :=
  { busyWith .csumBuf 2 with schedule := [.hostRead 32 0x08, .engine, .hostWrite 32 0x1C 7#32, .engine] }

theorem witness_CommandCompletesAtItsLastEngineStep :
    waiting.status.busy = true ∧ waiting.resetAsserted = false ∧ waiting.schedule.all Event.ordinary = true ∧
    3 ≤ waiting.schedule.length ∧ engineSteps (waiting.schedule.take 3) < waiting.engineLeft ∧
    waiting.schedule[3]? = some .engine ∧ engineSteps (waiting.schedule.take 3) + 1 = waiting.engineLeft := by decide

theorem witness_CmdWriteWhileIdleIsAccepted :
    State.reset.resetAsserted = false ∧ State.reset.status.busy = false := by decide

theorem witness_BusyLocksPbufAndCmd :
    (busyWith .csumBuf 2).resetAsserted = false ∧ (busyWith .csumBuf 2).status.busy = true ∧
    legalAccess 32 0x10000 = true ∧ legalAccess 8 0x1FFFF = true ∧ legalAccess 16 0x1FFFE = true := by decide

theorem witness_OnlyLegalAccessesArePerformed :
    State.reset.resetAsserted = false ∧
    [(32, 0xFFFC), (32, 0x10000), (8, 0x1FFFF), (16, 0x1FFFE)].map (fun a => legalAccess a.1 a.2) =
      [true, true, true, true] ∧
    [(32, 0xFFFE), (16, 0x0000), (8, 0xFFFF), (16, 0x10001), (32, 0x1FFFE), (64, 0x10000)].map
      (fun a => legalAccess a.1 a.2) = [false, false, false, false, false, false] := by decide

theorem witness_ReadsHaveNoSideEffect :
    hostRead 32 0x00 State.reset = .next { State.reset with busData := some 0x55445031#32 } := rfl

theorem witness_RegisterMapReads :
    State.reset.resetAsserted = false ∧
    ∀ offset ∈ [0x00, 0x04, 0x0C, 0x10, 0x14, 0x18, 0x1C, 0x20, 0x24, 0x28, 0x2C, 0x30, 0x34, 0x40, 0xFFFC],
      offset < 0x10000 ∧ offset % 4 = 0 := by decide

theorem witness_StatusReadsAndClears :
    State.reset.resetAsserted = false := by decide

theorem witness_CtrlHoldsTheInterruptEnable :
    (busyWith .csumBuf 1).resetAsserted = false ∧ State.reset.resetAsserted = false ∧ State.reset.ctrlIe = false ∧
    State.irq { State.reset with ctrlIe := true, status := { State.reset.status with done := true } } = true ∧
    State.irq { State.reset with ctrlIe := false, status := { State.reset.status with done := true } } = false := by decide

theorem witness_OperandRegistersHoldWhatIsWritten :
    State.reset.resetAsserted = false ∧ Reg.argAddr ∈ [Reg.argSrcIp, .argDstIp, .argPorts, .argLen, .argAddr] ∧
    Reg.id ≠ Reg.argAddr := by decide

theorem witness_ReadOnlyAndReservedIgnoreWrites :
    State.reset.resetAsserted = false ∧
    (∀ offset ∈ [0x00, 0x24, 0x28, 0x2C, 0x30, 0x34, 0xFFFC], offset < 0x10000 ∧ offset % 4 = 0 ∧
      (offset ∈ [0x00, 0x24, 0x28, 0x2C, 0x30] ∨ 0x34 ≤ offset)) := by decide

theorem witness_PbufLanesAreBigEndian :
    State.reset.resetAsserted = false ∧ State.reset.status.busy = false ∧
    65535 < 65536 ∧ (busyWith .hdrEncode 1).resetAsserted = false ∧ (busyWith .hdrEncode 1).status.busy = true ∧
    ((0 % 2 = 0 ∧ 0 < 65536) ∧ (65534 % 2 = 0 ∧ 65534 < 65536)) ∧
    ((0 % 4 = 0 ∧ 0 < 65536) ∧ (65532 % 4 = 0 ∧ 65532 < 65536)) := by decide

/-- A host write that changes PBUF[65535]. -/
def writing : State := { State.reset.memWrite 65535 [1#8] with schedule := [.hostWrite 8 0x1FFFF 2#32] }

/-- A completion that changes PBUF[0]. -/
def encoding : State := (busyWith .hdrEncode 1).memWrite 0 [1#8]

/-- A reset that changes PBUF[0]: the known byte is not the one that reset leaves. -/
def resetting : State := { State.reset.memWrite 0 [Config.unknownByte 0 1 0 + 1#8] with schedule := [.reset true] }

theorem witness_PbufChangesOnlyByWritesAndCompletions :
    (∃ t, step writing = .next t ∧ t.readByte 65535 ≠ writing.readByte 65535) ∧
    (∃ t, step encoding = .next t ∧ t.readByte 0 ≠ encoding.readByte 0) ∧
    (∃ t, step resetting = .next t ∧ t.readByte 0 ≠ resetting.readByte 0) := by
  refine ⟨⟨_, rfl, by decide⟩, ⟨_, rfl, by decide⟩, ⟨_, rfl, ?_⟩⟩
  have h : ∀ b : Byte, b ≠ b + 1#8 := by decide
  exact h _

theorem witness_OverrunRecordsRefusedWrites :
    (∃ t, step { busyWith .csumBuf 2 with schedule := [.hostWrite 32 0x0C 1#32] } = .next t ∧
      (busyWith .csumBuf 2).status.ovr = false ∧ t.status.ovr = true) ∧
    (∃ t, step { State.reset with status := State.reset.status.overrun, schedule := [.hostWrite 32 0x08 0x20#32] } = .next t ∧
      t.status.ovr = false) ∧
    (∃ t, step { State.reset with status := State.reset.status.overrun, schedule := [.reset true] } = .next t ∧
      t.status.ovr = false) :=
  ⟨⟨_, rfl, rfl, rfl⟩, ⟨_, rfl, rfl⟩, ⟨_, rfl, rfl⟩⟩

theorem witness_InterruptFollowsEnableAndDone :
    State.reset.resetAsserted = false ∧
    (∃ t, hostWrite 32 0x04 1#32 State.reset = .next t) ∧ (2#32).getLsbD 1 = true ∧
    (∃ t, hostWrite 32 0x08 2#32 State.reset = .next t) ∧ State.reset.status.busy = false ∧
    (∃ t, hostWrite 32 0x0C 1#32 State.reset = .next t) ∧ ∃ t, perform (.reset true) State.reset = .next t :=
  ⟨rfl, ⟨_, rfl⟩, rfl, ⟨_, rfl⟩, rfl, ⟨_, rfl⟩, ⟨_, rfl⟩⟩

theorem witness_DoneClearAndCompletionInBothOrders :
    (busyWith .pktEncode 1).resetAsserted = false ∧ (busyWith .pktEncode 1).status.busy = true ∧
    (2#32).getLsbD 1 = true := by decide

/-- The block after reset with latched ARG_LEN = n and ARG_ADDR = a. -/
def latchedRange (n a : Word) : State := latched ⟨0#32, 0#32, 0#32, n, a⟩

theorem witness_HdrConstructBuildsTheHeader :
    8 + (latchedRange 65527#32 0#32).latch.args.len.toNat ≤ 65535 ∧
    8 + (latchedRange 65528#32 0#32).latch.args.len.toNat > 65535 ∧
    8 + (latchedRange 0xFFFFFFFF#32 0#32).latch.args.len.toNat > 65535 := by decide

theorem witness_HdrDecodeReadsTheWireHeader :
    8 ≤ (latchedRange 8#32 0#32).latch.args.len.toNat ∧ (latchedRange 7#32 0#32).latch.args.len.toNat < 8 := by decide

theorem witness_HeaderCodecIsABijection : (encHdr pingHeader).length = 8 := by decide

theorem witness_HeaderRoundTrip : 8 ≤ (8#32).toNat ∧ 8 ≤ (withArgs ⟨0#32, 0#32, 0#32, 8#32, 0#32⟩).args.len.toNat := by decide

theorem witness_PshEncodeWritesThePseudoHeader :
    (latchedRange 0#32 65524#32).latch.args.addr.toNat + 12 ≤ 65536 ∧
    (latchedRange 0#32 65525#32).latch.args.addr.toNat + 12 > 65536 := by decide

theorem witness_ChecksumIsNeverZero : 0 < 1 ∧ checksum [0xFF#8, 0xFF#8] = 0xFFFF#16 ∧
    fold (wordSum (padEven [0xFF#8, 0xFF#8])) = 0xFFFF ∧ wordSum (padEven [0x00#8]) = 0 := by decide

theorem witness_ChecksumSumFitsThirtyTwoBits :
    (List.replicate 65527 0#8).length ≤ 65527 ∧ (List.replicate 65536 0#8).length ≤ 65536 ∧ 0xFFFFFFFF < 2 ^ 32 :=
  ⟨List.length_replicate.le, List.length_replicate.le, by decide⟩

theorem witness_ChecksumIgnoresWordOrder :
    ([] : List Byte).length % 2 = 0 ∧ [1#8, 2#8].length % 2 = 0 := by decide

theorem witness_CsumBufChecksumsTheRange :
    (latchedRange 1#32 65535#32).latch.args.addr.toNat + (latchedRange 1#32 65535#32).latch.args.len.toNat ≤ 65536 ∧
    (latchedRange 2#32 65535#32).latch.args.addr.toNat + (latchedRange 2#32 65535#32).latch.args.len.toNat > 65536 := by decide

theorem witness_PshEncodeThenCsumBuf :
    (withArgs ⟨0#32, 0#32, 0#32, 0#32, 65524#32⟩).args.addr.toNat + 12 ≤ 65536 := by decide

/-- V-C19: the pseudo-header of V-P1 and its packet in PBUF, at 0. -/
def received : State :=
  ((withArgs { pingArgs with len := 24#32 }).memWrite 0 (psh 0x7F000001#32 0x7F000001#32 12#16)).memWrite 12 pingWire

theorem witness_CsumBufVerifiesAReceivedPacket :
    pingHeader.len.toNat = 8 + [0x50#8, 0x49#8, 0x4E#8, 0x47#8].length ∧
    received.args.len.toNat = 12 + pingHeader.len.toNat ∧
    received.args.addr.toNat + 12 + pingHeader.len.toNat ≤ 65536 ∧
    pingHeader.csum = checksum (packetInput 0x7F000001#32 0x7F000001#32 pingHeader [0x50#8, 0x49#8, 0x4E#8, 0x47#8]) ∧
    received.memRead received.args.addr.toNat 12 = psh 0x7F000001#32 0x7F000001#32 pingHeader.len ∧
    received.memRead (received.args.addr.toNat + 12) pingHeader.len.toNat =
      encHdr pingHeader ++ [0x50#8, 0x49#8, 0x4E#8, 0x47#8] := by decide

theorem witness_PktConstructBuildsThePacket :
    8 + (latchedRange 65527#32 0#32).latch.args.len.toNat ≤ 65535 ∧
    8 + (latchedRange 65528#32 0#32).latch.args.len.toNat > 65535 := by decide

theorem witness_PktEncodeWritesTheWirePacket :
    (withPacket pingHeader).status.pktValid = true ∧ State.reset.status.pktValid = false := by decide

theorem witness_PktDecodeTakesTheReceivedPacket :
    (latchedRange 7#32 0#32).latch.args.len.toNat < 8 ∧
    (8 ≤ (latchedRange 8#32 0#32).latch.args.len.toNat ∧
      (((latchedRange 8#32 0#32).memWrite 0 pingWire).readByte 4 ++
        ((latchedRange 8#32 0#32).memWrite 0 pingWire).readByte 5 : Half).toNat ≠ 8) ∧
    (8 ≤ (latchedRange 12#32 0#32).latch.args.len.toNat ∧
      (((latchedRange 12#32 0#32).memWrite 0 pingWire).readByte 4 ++
        ((latchedRange 12#32 0#32).memWrite 0 pingWire).readByte 5 : Half).toNat =
        (latchedRange 12#32 0#32).latch.args.len.toNat) := by decide

theorem witness_PktCsumRecomputesTheChecksum :
    (withPacket pingHeader).status.pktValid = true ∧ State.reset.status.pktValid = false := by decide

theorem witness_PktCsumAfterPktConstruct :
    8 + (withArgs pingArgs).args.len.toNat ≤ 65535 ∧
    8 + (withArgs ⟨0#32, 0#32, 0#32, 65527#32, 0#32⟩).args.len.toNat ≤ 65535 := by decide

theorem witness_PacketRoundTrip : 8 + (withArgs pingArgs).args.len.toNat ≤ 65535 := by decide

theorem witness_FailingCommandHasNoOtherEffect :
    (∃ t, completeLatched State.reset = .next t ∧ t.status.errCode ≠ 0#4) ∧
    ∃ t, completeLatched (busyWith .pktCsum 1) = .next t ∧ t.status.errCode ≠ 0#4 :=
  ⟨⟨_, rfl, by decide⟩, ⟨_, rfl, by decide⟩⟩

theorem witness_CommandCodesAreTheTable : decode State.reset.latch.cmd = .error .reservedOpcode := rfl

theorem witness_CommandsReadTheLatchOnly : ∃ t, exec .pktEncode (withPacket pingHeader) = .next t := ⟨_, rfl⟩

theorem witness_CommandsUseOnlyTheirPbufRanges :
    (∃ t, exec .hdrEncode State.reset = .next t ∧ t.status.errCode = 0#4) ∧
    State.reset.writes .hdrEncode 7 = true ∧ State.reset.writes .hdrEncode 8 = false ∧
    (latchedRange 1#32 65535#32).reads .csumBuf 65535 = true ∧ (latchedRange 1#32 65535#32).reads .csumBuf 65534 = false ∧
    ∀ a, State.reset.reads .hdrEncode a = true →
      State.readByte { State.reset with pbuf := [(9, 1#8)], pbufEpoch := 1 } a = State.reset.readByte a :=
  ⟨⟨_, rfl, rfl⟩, rfl, rfl, rfl, rfl, fun _ h => nomatch h⟩

theorem witness_OnlyFiveCommandsWriteTheHeader :
    (∃ t, hostWrite 32 0x24 1#32 State.reset = .next t) ∧
    (∃ t, exec (.hdrSetCsum 5#16) State.reset = .next t ∧ t.hdr ≠ State.reset.hdr) ∧
    (∃ t, exec .hdrConstruct State.reset = .next t ∧ t.hdr ≠ State.reset.hdr) :=
  ⟨⟨_, rfl⟩, ⟨_, rfl, by decide⟩, ⟨_, rfl, by decide⟩⟩

theorem witness_PktValidFollowsItsRule :
    (∃ t, exec .pktConstruct State.reset = .next t ∧ t.status.errCode = 0#4 ∧ t.status.pktValid = true) ∧
    (∃ t, exec .hdrConstruct (withPacket pingHeader) = .next t ∧ t.status.errCode = 0#4 ∧ t.status.pktValid = false) ∧
    (∃ t, exec .hdrDecode (withPacket pingHeader) = .next t ∧ t.status.errCode ≠ 0#4 ∧ t.status.pktValid = true) ∧
    (∃ t, exec (.hdrSetCsum 0#16) (withPacket pingHeader) = .next t ∧ t.status.errCode = 0#4 ∧ t.status.pktValid = true) ∧
    (∃ t, perform (.hostWrite 32 0x08 0#32) (withPacket pingHeader) = .next t ∧ t.status.pktValid = true) ∧
    (∃ t, perform (.reset true) (withPacket pingHeader) = .next t ∧ t.status.pktValid = false) :=
  ⟨⟨_, rfl, rfl, rfl⟩, ⟨_, rfl, rfl, rfl⟩, ⟨_, rfl, by decide, rfl⟩, ⟨_, rfl, rfl, rfl⟩, ⟨_, rfl, rfl⟩, ⟨_, rfl, rfl⟩⟩

theorem witness_ResultRegistersHaveTheirWriters :
    (∃ t, exec .csumBuf State.reset = .next t ∧ t.csumOut ≠ State.reset.csumOut) ∧
    (∃ t, exec .pktEncode (withPacket pingHeader) = .next t ∧ t.xlen ≠ (withPacket pingHeader).xlen) ∧
    (∃ t, hostWrite 32 0x2C 1#32 State.reset = .next t) := ⟨⟨_, rfl, by decide⟩, ⟨_, rfl, by decide⟩, ⟨_, rfl⟩⟩

/-- A state of a run with a packet, a command in flight and a known byte keeps the invariant, and its step is a next state. -/
theorem witness_EveryStepKeepsTheInvariant :
    State.Inv { busyWith .hdrDecode 1 with
      hdr := pingHeader, pbuf := [(65535, 1#8)],
      status := ⟨true, false, true, true, true, 7#4⟩ } ∧
    ∃ t, step { busyWith .hdrDecode 1 with
      hdr := pingHeader, pbuf := [(65535, 1#8)], status := ⟨true, false, true, true, true, 7#4⟩ } = .next t :=
  ⟨by constructor <;> decide, ⟨_, rfl⟩⟩

theorem witness_NoErrorStopsTheBlock :
    State.reset.nextEvent = .engine ∧ (∃ b, resetting.nextEvent = .reset b) ∧
    (writing.resetAsserted = false ∧ writing.nextEvent.ordinary = true) := ⟨rfl, ⟨_, rfl⟩, rfl, rfl⟩

/-- Two blocks of a platform, in the windows at 0x20000 and 0x80000. -/
def twoBlocks : Platform := Platform.reset [1, 4]

/-- The access or step of a platform answers a next state. -/
def answers (r : Host.Outcome Platform Fault Refusal) : Bool :=
  match r with
  | .next _ => true
  | .fault _ | .refused _ => false

theorem next_of_answers {r : Host.Outcome Platform Fault Refusal} (h : answers r = true) : ∃ q, r = .next q := by
  cases r with
  | next q => exact ⟨q, rfl⟩
  | fault _ => cases h
  | refused _ => cases h

theorem witness_BlocksShareNoState :
    (∃ q, twoBlocks.stepBlock 1 = .next q) ∧ (∃ q, twoBlocks.hostWrite 32 0x80004 1#32 = .next q) ∧
    (∃ q, twoBlocks.hostWrite 8 0x3FFFF 1#32 = .next q) ∧ (∃ q, twoBlocks.hostRead 32 0x80000 = .next q) ∧ (0 : Nat) ≠ 1 :=
  ⟨next_of_answers (by decide), next_of_answers (by decide), next_of_answers (by decide), next_of_answers (by decide),
    by decide⟩

/-- The first and the last address of a window, an address in no window, and the accesses of the block that holds one. -/
theorem witness_BlocksShareNoState_windows :
    twoBlocks[1]? = some (Block.reset 4) ∧
    (∀ address ∈ [0x80000, 0x9FFFF], (Block.reset 4).base ≤ address ∧ address < (Block.reset 4).base + 0x20000 ∧
      ∀ b' ∈ twoBlocks.take 1, ¬ (b'.base ≤ address ∧ address < b'.base + 0x20000)) ∧
    (∀ b ∈ twoBlocks, ¬ (b.base ≤ 0x40000 ∧ 0x40000 < b.base + 0x20000)) ∧
    refusalOf (hostRead 16 (0x80000 - (Block.reset 4).base) (Block.reset 4).state) = some .busError ∧
    refusalOf (hostWrite 16 (0x80000 - (Block.reset 4).base) 1#32 (Block.reset 4).state) = some .busError := by decide

theorem witness_HostScriptLinesAreTheirHostSteps :
    [hostWrite 32 Reg.argLen.offset 4#32 State.reset, hostRead 32 Reg.xlen.offset State.reset,
      hostWrite 8 (0x10000 + 0xFFFF) 0x48#32 State.reset, hostWrite 16 (0x10000 + 0xFFFE) 0x4849#32 State.reset,
      hostWrite 32 (0x10000 + 0xFFFC) 1#32 State.reset, hostRead 8 (0x10000 + 0xFFFF) (busyWith .csumBuf 1),
      hostRead 16 (0x10000 + 0xFFFE) (busyWith .csumBuf 1), hostRead 32 (0x10000 + 0xFFFC) (busyWith .csumBuf 1)].map
        (fun r => (stateOf r).isSome) = [true, true, true, true, true, true, true, true] ∧
    (busyWith .csumBuf 1).resetAsserted = false ∧ (busyWith .csumBuf 1).status.busy = true ∧
    State.reset.resetAsserted = false ∧ State.reset.status.busy = false := by decide

/-- A latency of two: the first read finds BUSY = 1, the one after the second engine step ends the loop. -/
theorem witness_RunWaitsForItsCommand :
    State.reset.resetAsserted = false ∧ State.reset.status.busy = false ∧
    nextLatency [2] = 2 ∧ List.count Turn.engine [.engine, .host, .engine, .host] = 2 ∧
    Turn.reset true ∉ [Turn.engine, .host, .engine, .host] ∧ Turn.reset false ∉ [Turn.engine, .host, .engine, .host] ∧
    (runOf [.host, .engine, .host] (.start [.RUN 3#32] { State.reset with cmdLatencies := [2] })).map ScriptRun.todo =
      some [.poll] ∧
    (runOf [.host, .engine, .host, .engine, .host] (.start [.RUN 3#32] { State.reset with cmdLatencies := [2] })).map
      ScriptRun.todo = some [] := by decide

theorem witness_ScriptRunsAreMachineRuns :
    (runOf [.host, .host, .reset true, .engine] (.start [.W .ctrl 1#32] State.reset)).isSome = true ∧
    ScriptRun.events [.host, .host, .reset true, .engine] (.start [.W .ctrl 1#32] State.reset) =
      [.hostWrite 32 0x04 1#32, .reset true, .engine] := by decide

end Sys2Proof.Machine.Tests
end

section
/-! SUPPORT. The register map (10_state.md R23 to R25): what an access of a register or of a reserved offset does while reset is
released, and the registers' words as numbers and bits. -/

namespace Sys2Proof.Machine

/-! ### Which register an offset is -/

/-- From 0x34 on the register window and the range above it are reserved (10_state.md R23, 20_memory.md R63). -/
theorem Reg.ofOffset_reserved {offset : Nat} (h : 0x34 ≤ offset) : Reg.ofOffset offset = none := by
  unfold Reg.ofOffset
  split
  case h_14 => rfl
  all_goals omega

/-! ### Accesses below the PBUF window -/

/-- An aligned 32-bit access below the PBUF window is refused only in reset (20_memory.md R64, R70). -/
theorem refusal?_aligned {s : State} {offset : Nat} (hs : s.resetAsserted = false) (ho : offset < Config.pbufWindow)
    (ha : offset % 4 = 0) : s.refusal? 32 offset = none := by
  have hw : ¬ Config.windowBytes ≤ offset := Nat.not_le.mpr (ho.trans (by decide))
  have hl : legalAccess 32 offset = true := by simp [legalAccess, ho, ha]
  simp [State.refusal?, hs, hw, hl]

theorem hostRead_aligned {s : State} {offset : Nat} (hs : s.resetAsserted = false) (ho : offset < Config.pbufWindow)
    (ha : offset % 4 = 0) :
    hostRead 32 offset s = .next { s with busData := some ((Reg.ofOffset offset).elim 0#32 s.readReg) } := by
  simp [hostRead, refusal?_aligned hs ho ha, State.hostReadValue, Nat.not_le.mpr ho]

theorem hostWrite_aligned {s : State} {offset : Nat} (v : Word) (hs : s.resetAsserted = false)
    (ho : offset < Config.pbufWindow) (ha : offset % 4 = 0) :
    hostWrite 32 offset v s = .next ((Reg.ofOffset offset).elim s (s.writeReg v)) := by
  simp [hostWrite, refusal?_aligned hs ho ha, State.hostWriteEffect, Nat.not_le.mpr ho]

theorem Reg.offset_aligned (r : Reg) : r.offset < Config.pbufWindow ∧ r.offset % 4 = 0 := by cases r <;> decide

/-- A read of a register returns its word, BUSY or not (20_memory.md R70). -/
theorem hostRead_reg {s : State} (r : Reg) (hs : s.resetAsserted = false) :
    hostRead 32 r.offset s = .next { s with busData := some (s.readReg r) } := by
  rw [hostRead_aligned hs r.offset_aligned.1 r.offset_aligned.2, Reg.ofOffset_offset]
  rfl

/-- A write of a register is performed, BUSY or not (20_memory.md R70). -/
theorem hostWrite_reg {s : State} (r : Reg) (v : Word) (hs : s.resetAsserted = false) :
    hostWrite 32 r.offset v s = .next (s.writeReg v r) := by
  rw [hostWrite_aligned v hs r.offset_aligned.1 r.offset_aligned.2, Reg.ofOffset_offset]
  rfl

/-! ### What a host write leaves unchanged -/

/-- No host write touches the header register, the results, PKT_VALID or ERRCODE (10_state.md R32, R38, R45, R46), the reset
input, the schedule or the last read value. -/
theorem hostWrite_keeps {width offset : Nat} {v : Word} {s t : State} (h : hostWrite width offset v s = .next t) :
    t.hdr = s.hdr ∧ t.csumOut = s.csumOut ∧ t.xlen = s.xlen ∧ t.status.pktValid = s.status.pktValid ∧
      t.status.errCode = s.status.errCode ∧ t.pbufEpoch = s.pbufEpoch ∧ t.resetAsserted = s.resetAsserted ∧
      t.schedule = s.schedule ∧ t.busData = s.busData := by
  obtain ⟨-, rfl⟩ := hostWrite_cases h
  obtain ⟨-, he⟩ | ⟨-, r, -, he⟩ | ⟨-, -, he⟩ := hostWriteEffect_cases s width offset v <;> rw [he]
  · unfold State.hostWritePbuf
    split_ifs <;> simp
  · cases r <;> simp only [State.writeReg, State.writeCmd, Status.clearBits_pktValid, Status.clearBits_errCode, and_self]
    split_ifs <;> simp
  · simp

/-! ### Words of two parts -/

/-- `{hi, lo}` as a number (00_scope.md R10). -/
theorem toNat_append_eq_mul_add {m n : Nat} (hi : BitVec m) (lo : BitVec n) :
    (hi ++ lo).toNat = hi.toNat * 2 ^ n + lo.toNat := by
  rw [BitVec.toNat_append, ← Nat.shiftLeft_add_eq_or_of_lt lo.isLt, Nat.shiftLeft_eq]

/-! ### The bits of STATUS (10_state.md R42) -/

/-- Which flag stands in which of the bits 0 to 5. -/
theorem Status.toWord_flags (st : Status) :
    st.toWord.getLsbD 0 = st.busy ∧ st.toWord.getLsbD 1 = st.done ∧ st.toWord.getLsbD 2 = st.err ∧
    st.toWord.getLsbD 3 = st.pktValid ∧ st.toWord.getLsbD 4 = st.anyErr ∧ st.toWord.getLsbD 5 = st.ovr := by
  simp only [Status.toWord, BitVec.getLsbD_append]
  simp

theorem Status.toWord_errCode (st : Status) : st.toWord.extractLsb' 8 4 = st.errCode := by
  ext i hi
  simp only [BitVec.getElem_extractLsb', Status.toWord, BitVec.getLsbD_append]
  interval_cases i <;> simp

/-- The reserved bits read 0. -/
theorem Status.toWord_reserved (st : Status) :
    st.toWord.extractLsb' 6 2 = 0#2 ∧ st.toWord.extractLsb' 12 20 = 0#20 := by
  constructor <;> ext i hi <;> simp only [BitVec.getElem_extractLsb', Status.toWord, BitVec.getLsbD_append]
  · interval_cases i <;> simp
  · simpa using fun _ h => by omega

end Sys2Proof.Machine
end

section
/-! SUPPORT. The commands' writes: whether a command failed or succeeded, and what a success leaves in the header register, in
PKT_VALID and in the result registers (10_state.md R32, R38, R45, R46). -/

namespace Sys2Proof.Machine

/-- A command fails, with a code that is not 0 and no other write, or makes all its writes with code 0. -/
theorem exec_failed_or_succeeded {i : Instr} {s t : State} (h : exec i s = .next t) :
    (t.status.errCode ≠ 0#4 ∧ ∃ c, t = s.complete c) ∨
    (t.status.errCode = 0#4 ∧ ∃ u, Succeeds i s u ∧ t = u.complete codeOk) := by
  obtain ⟨e, -, rfl⟩ | ⟨u, hu, rfl⟩ := exec_cases h
  · exact .inl ⟨e.code_ne_ok, _, rfl⟩
  · exact .inr ⟨rfl, u, hu, rfl⟩

theorem Succeeds.hdr_eq {i : Instr} {s u : State} (h : Succeeds i s u) :
    u.hdr = s.hdr ∨ i ∈ [.hdrConstruct, .hdrDecode, .pktConstruct, .pktDecode] ∨
      ∃ c, i = .hdrSetCsum c ∧ u.hdr = { s.hdr with csum := c } := by
  cases h with
  | hdrConstruct | hdrDecode | pktConstruct | pktDecode => exact .inr (.inl (by decide))
  | hdrSetCsum value => exact .inr (.inr ⟨value, rfl, rfl⟩)
  | hdrEncode | pshEncode | csumBuf | pktEncode | pktCsum => exact .inl rfl

theorem Succeeds.pktValid_eq {i : Instr} {s u : State} (h : Succeeds i s u) :
    u.status.pktValid =
      if i = .pktConstruct ∨ i = .pktDecode then true
      else if i = .hdrConstruct ∨ i = .hdrDecode then false
      else s.status.pktValid := by
  cases h <;> simp

theorem zeroRule_ne_zero (r : Half) : zeroRule r ≠ 0#16 := by
  unfold zeroRule
  split_ifs with h
  · decide
  · exact h

theorem checksum_ne_zero (bs : List Byte) : checksum bs ≠ 0#16 := zeroRule_ne_zero _

theorem Succeeds.csumOut_eq {i : Instr} {s u : State} (h : Succeeds i s u) :
    ((i = .csumBuf ∨ i = .pktCsum) ∧ u.csumOut ≠ 0#16) ∨ (¬ (i = .csumBuf ∨ i = .pktCsum) ∧ u.csumOut = s.csumOut) := by
  cases h with
  | csumBuf => exact .inl ⟨.inl rfl, checksum_ne_zero _⟩
  | pktCsum => exact .inl ⟨.inr rfl, checksum_ne_zero _⟩
  | _ => exact .inr ⟨by simp, rfl⟩

theorem Succeeds.xlen_eq {i : Instr} {s u : State} (h : Succeeds i s u) :
    u.xlen = if i = .pktEncode then s.hdr.len else s.xlen := by
  cases h <;> simp

/-- The reset input resets the block, or it is a release that finds nothing to release (70_reset_and_hazards.md R230). -/
theorem State.driveReset_cases (s : State) (b : Bool) :
    (b = false ∧ s.driveReset b = s) ∨ s.driveReset b = s.resetBlock b := by
  cases b
  · unfold State.driveReset
    split_ifs
    · exact .inr rfl
    · exact .inl ⟨rfl, rfl⟩
  · exact .inr rfl

end Sys2Proof.Machine
end

section
/-! PROOFS. The registers as the host reads and writes them (10_state.md R23 to R25, R31, R40 to R46). -/

namespace Sys2Proof.Machine

/-- The words that are put together from narrower fields: CTRL, CSUM_OUT and XLEN zero-extend theirs, HDR_PORTS and
HDR_LENCSUM pair two. -/
theorem State.readReg_toNat (s : State) :
    (s.readReg .ctrl).toNat = s.ctrlIe.toNat ∧
    (s.readReg .hdrPorts).toNat = s.hdr.sport.toNat * 65536 + s.hdr.dport.toNat ∧
    (s.readReg .hdrLencsum).toNat = s.hdr.len.toNat * 65536 + s.hdr.csum.toNat ∧
    (s.readReg .csumOut).toNat = s.csumOut.toNat ∧ (s.readReg .xlen).toNat = s.xlen.toNat := by
  simp only [State.readReg, toNat_append_eq_mul_add]
  simp

/-- Settles O15: an aligned read returns the word of the register at its offset, and 0 where the map has none. -/
theorem registerMapReads : Obligations.RegisterMapReads := by
  intro s offset hs ho ha
  obtain ⟨hctrl, hports, hlencsum, hcsum, hxlen⟩ := s.readReg_toNat
  refine ⟨_, hostRead_aligned hs ho ha, ?_⟩
  refine ⟨?_, ?_, ?_, ?_, ?_, ?_, ?_, ?_, ?_, ?_, ?_, ?_, fun h => by rw [Reg.ofOffset_reserved h]; rfl⟩ <;> rintro rfl
  exacts [rfl, hctrl, rfl, rfl, rfl, rfl, rfl, rfl, hports, hlencsum, hcsum, hxlen]

/-- Settles O16: the read returns `Status.toWord`, and the write is `Status.clearBits`. -/
theorem statusReadsAndClears : Obligations.StatusReadsAndClears := by
  intro s v hs
  obtain ⟨hbusy, hdone, herr, hvalid, hany, hovr⟩ := s.status.toWord_flags
  obtain ⟨hlow, hhigh⟩ := s.status.toWord_reserved
  have herr' : s.status.toWord.getLsbD 2 = true ↔ s.status.errCode ≠ 0#4 := by
    rw [herr]
    exact bne_iff_ne
  exact ⟨⟨_, hostRead_reg .status hs, hbusy, hdone, herr', hvalid, hany, hovr, hlow, s.status.toWord_errCode, hhigh⟩,
    hostWrite_reg .status v hs⟩

/-- A write of an operand register stores the value there and changes no other register (10_state.md R25). -/
theorem State.readReg_writeReg_operand (s : State) (v : Word) {r : Reg}
    (hr : r ∈ [Reg.argSrcIp, .argDstIp, .argPorts, .argLen, .argAddr]) (r' : Reg) :
    (s.writeReg v r).readReg r' = if r' = r then v else s.readReg r' := by
  obtain rfl | rfl | rfl | rfl | rfl := by simpa using hr
  all_goals cases r' <;> rfl

/-- A write of an operand register leaves everything but the operand registers as it is (10_state.md R25). -/
theorem State.writeReg_operand_frame (s : State) (v : Word) {r : Reg}
    (hr : r ∈ [Reg.argSrcIp, .argDstIp, .argPorts, .argLen, .argAddr]) :
    { s.writeReg v r with args := s.args } = s ∧ (s.writeReg v r).resetAsserted = s.resetAsserted := by
  obtain rfl | rfl | rfl | rfl | rfl := by simpa using hr
  all_goals exact ⟨rfl, rfl⟩

/-- Settles O18: by the read-after-write rule of the five operand registers. -/
theorem operandRegistersHoldWhatIsWritten : Obligations.OperandRegistersHoldWhatIsWritten := by
  intro s v hs
  refine ⟨fun r hr => ⟨_, hostWrite_reg r v hs, ?_, ?_, fun r' hne => ?_⟩, by decide⟩
  · obtain ⟨-, hreset⟩ := s.writeReg_operand_frame v hr
    rw [hostRead_reg r (hreset.trans hs), s.readReg_writeReg_operand v hr, if_pos rfl]
  · exact (s.writeReg_operand_frame v hr).1
  · rw [s.readReg_writeReg_operand v hr, if_neg hne]

/-- Settles O17: CTRL is the register at 0x04, and the interrupt output is `CTRL.IE & STATUS.DONE`. -/
theorem ctrlHoldsTheInterruptEnable : Obligations.CtrlHoldsTheInterruptEnable := by
  refine ⟨fun s v hs => ⟨hostWrite_reg .ctrl v hs, _, hostRead_reg .ctrl hs, ?_, ?_⟩, rfl, fun s => ?_⟩
  · simp only [State.readReg, BitVec.getLsbD_append]
    simp
  · ext i hi
    simp only [BitVec.getElem_extractLsb', State.readReg, BitVec.getLsbD_append]
    simp
  · simp +contextual [State.irq]

/-- Settles O19: the writes of the read-only registers are ignored, and a reserved offset has no register. -/
theorem readOnlyAndReservedIgnoreWrites : Obligations.ReadOnlyAndReservedIgnoreWrites := by
  intro s v offset hs ho ha hoff
  rw [hostWrite_aligned v hs ho ha]
  obtain h | h := hoff
  · obtain rfl | rfl | rfl | rfl | rfl := by simpa using h
    all_goals rfl
  · rw [Reg.ofOffset_reserved h]
    rfl

end Sys2Proof.Machine
end

section
/-! PROOFS. Who writes the header register, PKT_VALID and the result registers (10_state.md R32, R38, R45, R46). -/

namespace Sys2Proof.Machine

/-- Settles O51: by the frame of a host write, and by cases on the command that succeeded. -/
theorem onlyFiveCommandsWriteTheHeader : Obligations.OnlyFiveCommandsWriteTheHeader := by
  refine ⟨fun s t width offset v h => ?_, fun i s t h hne => ?_⟩
  · exact (hostWrite_keeps h).1
  · obtain ⟨-, c, rfl⟩ | ⟨-, u, hu, rfl⟩ := exec_failed_or_succeeded h
    · exact absurd rfl hne
    · exact hu.hdr_eq.resolve_left hne

/-- Settles O52: a failure writes nothing; a success follows the rule of its command; of the other events only a reset of the
block touches PKT_VALID. -/
theorem pktValidFollowsItsRule : Obligations.PktValidFollowsItsRule := by
  refine ⟨fun i s t h => ?_, fun s t e h hne => ?_, fun s t h => ?_⟩
  · obtain ⟨herr, c, rfl⟩ | ⟨hok, u, hu, rfl⟩ := exec_failed_or_succeeded h
    · rw [if_pos herr]
      rfl
    · rw [if_neg (not_not.mpr hok)]
      exact hu.pktValid_eq
  · cases e with
    | hostRead width offset =>
      obtain ⟨-, rfl⟩ := hostRead_cases h
      exact .inl rfl
    | hostWrite width offset v =>
      obtain ⟨-, -, -, hvalid, -⟩ := hostWrite_keeps h
      exact .inl hvalid
    | engine => exact absurd rfl hne
    | reset b =>
      obtain rfl : s.driveReset b = t := by simpa [perform] using h
      obtain ⟨-, hd⟩ | hd := s.driveReset_cases b <;> rw [hd]
      · exact .inl rfl
      · exact .inr ⟨⟨b, rfl⟩, rfl⟩
  · cases h
    rfl

/-- Settles O53: by cases on the command that succeeded, the zero rule of the checksum, and the frame of a host write. -/
theorem resultRegistersHaveTheirWriters : Obligations.ResultRegistersHaveTheirWriters := by
  refine ⟨fun i s t h => ?_, fun s t width offset v h => ?_, rfl, rfl⟩
  · obtain ⟨herr, c, rfl⟩ | ⟨hok, u, hu, rfl⟩ := exec_failed_or_succeeded h
    · exact ⟨fun hne => absurd rfl hne, fun _ hok => absurd hok herr, fun hne => absurd rfl hne,
        fun _ hok => absurd hok herr⟩
    · refine ⟨fun hne => ⟨?_, hok⟩, fun hi _ => ?_, fun hne => ⟨?_, hok⟩, fun hi _ => ?_⟩
      · exact (hu.csumOut_eq.resolve_right fun hkept => hne hkept.2).1
      · exact (hu.csumOut_eq.resolve_right fun hkept => hkept.1 hi).2
      · by_contra hi
        exact hne (hu.xlen_eq.trans (if_neg hi))
      · exact hu.xlen_eq.trans (if_pos hi)
  · obtain ⟨-, hcsum, hxlen, -⟩ := hostWrite_keeps h
    exact ⟨hcsum, hxlen⟩

end Sys2Proof.Machine
end

section
/-! SUPPORT. The host's accesses to PBUF (20_memory.md R64 to R70): which are legal, what they read and write, BUSY or not, and
the lanes as numbers. -/

namespace Sys2Proof.Machine

/-! ### Legal and illegal accesses (20_memory.md R64, R65) -/

/-- Natural alignment spelled out for each width (20_memory.md R65). -/
theorem legalAccess_iff (width offset : Nat) : legalAccess width offset = true ↔
    (offset < 0x10000 ∧ width = 32 ∧ offset % 4 = 0) ∨
    (0x10000 ≤ offset ∧ (width = 8 ∨ (width = 16 ∧ offset % 2 = 0) ∨ (width = 32 ∧ offset % 4 = 0))) := by
  unfold legalAccess Config.pbufWindow
  split_ifs with h
  · simp only [Bool.and_eq_true, beq_iff_eq]
    omega
  · simp only [Bool.and_eq_true, Bool.or_eq_true, beq_iff_eq]
    constructor
    · rintro ⟨(rfl | rfl) | rfl, ha⟩ <;> omega
    · rintro (⟨hlt, -⟩ | ⟨-, rfl | ⟨rfl, ha⟩ | ⟨rfl, ha⟩⟩) <;> omega

/-- Legality at an offset of PBUF: the window's base is aligned for every width. -/
theorem legalAccess_pbuf_iff (width k : Nat) : legalAccess width (0x10000 + k) = true ↔
    width = 8 ∨ (width = 16 ∧ k % 2 = 0) ∨ (width = 32 ∧ k % 4 = 0) := by
  rw [legalAccess_iff]
  omega

/-- With reset released, an access inside the window is refused exactly when it is illegal (20_memory.md R64, R65). -/
theorem refusal?_inside {s : State} {offset : Nat} (width : Nat) (hs : s.resetAsserted = false)
    (ho : offset < Config.windowBytes) :
    s.refusal? width offset = if legalAccess width offset then none else some .busError := by
  simp [State.refusal?, hs, Nat.not_le.mpr ho]

theorem hostRead_performed {s : State} {width offset : Nat} (h : s.refusal? width offset = none) :
    hostRead width offset s = .next { s with busData := some (s.hostReadValue width offset) } := by
  simp [hostRead, h]

theorem hostWrite_performed {s : State} {width offset : Nat} (h : s.refusal? width offset = none) (v : Word) :
    hostWrite width offset v s = .next (s.hostWriteEffect width offset v) := by
  simp [hostWrite, h]

theorem hostRead_refused {s : State} {width offset : Nat} {r : Refusal} (h : s.refusal? width offset = some r) :
    hostRead width offset s = .refused r := by
  simp [hostRead, h]

theorem hostWrite_refused {s : State} {width offset : Nat} {r : Refusal} (h : s.refusal? width offset = some r) (v : Word) :
    hostWrite width offset v s = .refused r := by
  simp [hostWrite, h]

/-! ### Legal accesses to PBUF -/

theorem hostRead_pbuf {s : State} {width k : Nat} (hs : s.resetAsserted = false) (hk : k < 65536)
    (hl : legalAccess width (0x10000 + k) = true) :
    hostRead width (0x10000 + k) s = .next { s with busData := some (s.hostReadPbuf width k) } := by
  rw [hostRead_performed (by rw [refusal?_inside width hs (Nat.add_lt_add_left hk _), if_pos hl]), State.hostReadValue,
    Config.pbufWindow, if_pos (Nat.le_add_right _ _), Nat.add_sub_cancel_left]

theorem hostWrite_pbuf {s : State} {width k : Nat} (hs : s.resetAsserted = false) (hk : k < 65536)
    (hl : legalAccess width (0x10000 + k) = true) (v : Word) :
    hostWrite width (0x10000 + k) v s = .next (s.hostWritePbuf width k v) := by
  rw [hostWrite_performed (by rw [refusal?_inside width hs (Nat.add_lt_add_left hk _), if_pos hl]), State.hostWriteEffect,
    Config.pbufWindow, if_pos (Nat.le_add_right _ _), Nat.add_sub_cancel_left]

/-- A legal read while BUSY = 0 returns the addressed lanes (20_memory.md R67). -/
theorem hostRead_pbuf_idle {s : State} {width k : Nat} (hs : s.resetAsserted = false) (hb : s.status.busy = false)
    (hk : k < 65536) (hl : legalAccess width (0x10000 + k) = true) :
    hostRead width (0x10000 + k) s = .next { s with busData := some (s.lanesAt width k) } := by
  rw [hostRead_pbuf hs hk hl, State.hostReadPbuf, if_neg (by simp [hb])]

/-- A legal write while BUSY = 0 stores the lanes of its value (20_memory.md R67). -/
theorem hostWrite_pbuf_idle {s : State} {width k : Nat} (hs : s.resetAsserted = false) (hb : s.status.busy = false)
    (hk : k < 65536) (hl : legalAccess width (0x10000 + k) = true) (v : Word) :
    hostWrite width (0x10000 + k) v s = .next (s.memWrite k (laneBytes width v)) := by
  rw [hostWrite_pbuf hs hk hl, State.hostWritePbuf, if_neg (by simp [hb])]

/-! ### Lanes (20_memory.md R66, R67) -/

theorem word_toNat (b0 b1 b2 b3 : Byte) : (word b0 b1 b2 b3).toNat =
    b0.toNat * 16777216 + b1.toNat * 65536 + b2.toNat * 256 + b3.toNat := by
  simp only [word, toNat_append_eq_mul_add]
  omega

theorem word_eq_half_append_half (b0 b1 b2 b3 : Byte) : word b0 b1 b2 b3 = half b0 b1 ++ half b2 b3 := by
  apply BitVec.eq_of_toNat_eq
  rw [word_toNat, toNat_append_eq_mul_add, half_toNat, half_toNat]
  omega

theorem State.lanesAt_8_toNat (s : State) (k : Nat) : (s.lanesAt 8 k).toNat = (s.readByte k).toNat :=
  BitVec.toNat_setWidth_of_le (by decide)

theorem State.lanesAt_16_toNat (s : State) (k : Nat) :
    (s.lanesAt 16 k).toNat = (s.readByte k).toNat * 256 + (s.readByte (k + 1)).toNat :=
  (BitVec.toNat_setWidth_of_le (by decide)).trans (half_toNat _ _)

theorem State.lanesAt_32_toNat (s : State) (k : Nat) : (s.lanesAt 32 k).toNat =
    (s.readByte k).toNat * 16777216 + (s.readByte (k + 1)).toNat * 65536 + (s.readByte (k + 2)).toNat * 256 +
      (s.readByte (k + 3)).toNat := word_toNat _ _ _ _

theorem laneBytes_8 (v : Word) : laneBytes 8 v = [v.extractLsb' 0 8] :=
  congrArg (fun b => [b]) (BitVec.setWidth_eq_extractLsb' (by decide))

theorem laneBytes_16 (v : Word) : laneBytes 16 v = [v.extractLsb' 8 8, v.extractLsb' 0 8] := by
  show be16 (v.setWidth 16) = _
  rw [be16, BitVec.extractLsb'_setWidth_of_le (by decide), BitVec.extractLsb'_setWidth_of_le (by decide)]

theorem laneBytes_32 (v : Word) : laneBytes 32 v =
    [v.extractLsb' 24 8, v.extractLsb' 16 8, v.extractLsb' 8 8, v.extractLsb' 0 8] := rfl

/-- What a legal write while BUSY = 0 leaves in PBUF: its lanes, read back, and every other byte as before. -/
theorem hostWrite_pbuf_stores {s : State} {width k : Nat} (hs : s.resetAsserted = false) (hb : s.status.busy = false)
    (hk : k < 65536) (hl : legalAccess width (0x10000 + k) = true) (v : Word) {bs : List Byte}
    (hbs : laneBytes width v = bs) : ∃ m, hostWrite width (0x10000 + k) v s = .next { s with pbuf := m } ∧
      State.memRead { s with pbuf := m } k bs.length = bs ∧
      ∀ a, (a < k ∨ k + bs.length ≤ a) → State.readByte { s with pbuf := m } a = s.readByte a :=
  ⟨s.pbuf.setBytes k bs, hbs ▸ hostWrite_pbuf_idle hs hb hk hl v, s.memRead_memWrite k bs,
    fun _ ha => s.readByte_memWrite_outside ha⟩

/-- The 32-bit lanes at offset 0 after the header is encoded there are the two ports, as HDR_PORTS has them
(20_memory.md R67). -/
theorem State.lanesAt_memWrite_encHdr (s : State) :
    (s.memWrite 0 (encHdr s.hdr)).lanesAt 32 0 = s.readReg .hdrPorts := by
  have hbyte (k : Nat) (hk : k < 8) := s.readByte_memWrite_inside 0 (encHdr s.hdr) (k := k) hk
  simp only [Nat.zero_add] at hbyte
  show word _ _ _ _ = s.hdr.sport ++ s.hdr.dport
  rw [hbyte 0 (by decide), hbyte 1 (by decide), hbyte 2 (by decide), hbyte 3 (by decide), word_eq_half_append_half]
  exact congrArg₂ (· ++ ·) (half_be16 _) (half_be16 _)

/-! ### Registers while BUSY (20_memory.md R70) -/

/-- The state with BUSY set or cleared, and nothing else. -/
def State.withBusy (s : State) (b : Bool) : State := { s with status := { s.status with busy := b } }

theorem State.withBusy_self {s : State} {b : Bool} (h : s.status.busy = b) : s.withBusy b = s := by
  subst h
  rfl

/-- A write of a register other than CMD neither reads nor writes BUSY. -/
theorem State.writeReg_withBusy (s : State) (v : Word) {r : Reg} (hr : r ≠ .cmd) (b : Bool) :
    (s.withBusy b).writeReg v r = (s.writeReg v r).withBusy b := by
  cases r with
  | cmd => exact absurd rfl hr
  | _ => rfl

end Sys2Proof.Machine
end

section
/-! PROOFS. The host's window (20_memory.md R63 to R71): legal accesses, reads without side effect, the lanes of PBUF, and what
BUSY locks. -/

namespace Sys2Proof.Machine

/-- Settles O13: inside the window only legality decides, and `legalAccess_iff` spells it out. -/
theorem onlyLegalAccessesArePerformed : Obligations.OnlyLegalAccessesArePerformed := by
  intro s width offset v hs ho
  have hr := refusal?_inside width hs ho
  simp only [← legalAccess_iff]
  refine ⟨fun hl => ?_, fun hl => ?_⟩
  · rw [if_pos hl] at hr
    exact ⟨⟨_, hostRead_performed hr⟩, _, hostWrite_performed hr v⟩
  · rw [if_neg hl] at hr
    exact ⟨hostRead_refused hr, hostWrite_refused hr v⟩

/-- Settles O14: a performed read changes `busData` only. -/
theorem readsHaveNoSideEffect : Obligations.ReadsHaveNoSideEffect := by
  intro s t width offset h
  obtain ⟨-, rfl⟩ := hostRead_cases h
  rfl

/-- Settles O12: PBUF and CMD test BUSY, and the write of any other register commutes with setting BUSY. -/
theorem busyLocksPbufAndCmd : Obligations.BusyLocksPbufAndCmd := by
  intro s v hs hb
  have hcmd : hostWrite 32 0x0C v s = .next (s.writeCmd v) := hostWrite_reg .cmd v hs
  refine ⟨fun width offset hp ho hl => ?_, ?_, fun r => ⟨hostRead_reg r hs, fun hr => ?_⟩⟩
  · obtain ⟨k, rfl⟩ := Nat.exists_eq_add_of_le hp
    have hk : k < 65536 := by omega
    rw [hostWrite_pbuf hs hk hl, hostRead_pbuf hs hk hl, State.hostWritePbuf, State.hostReadPbuf, if_pos hb, if_pos hb]
    exact ⟨rfl, rfl⟩
  · rw [hcmd, State.writeCmd, if_pos hb]
    rfl
  · refine ⟨_, hostWrite_reg r v hs, ?_⟩
    have hcommutes : s.writeReg v r = ((s.withBusy false).writeReg v r).withBusy true :=
      calc s.writeReg v r
        _ = (s.withBusy true).writeReg v r := by rw [State.withBusy_self hb]
        _ = ((s.withBusy false).withBusy true).writeReg v r := rfl
        _ = ((s.withBusy false).writeReg v r).withBusy true := State.writeReg_withBusy _ v hr true
    rw [hostWrite_reg r v hs, hcommutes]
    rfl

/-- Settles O20: each legal width by its lanes, and HDR_ENCODE by the bytes it leaves at offset 0. -/
theorem pbufLanesAreBigEndian : Obligations.PbufLanesAreBigEndian := by
  refine ⟨fun s k hs hb => ?_, fun s hs => ?_⟩
  · have h8 : legalAccess 8 (0x10000 + k) = true := (legalAccess_pbuf_iff 8 k).2 (.inl rfl)
    have h16 (hk : k % 2 = 0) : legalAccess 16 (0x10000 + k) = true := (legalAccess_pbuf_iff 16 k).2 (.inr (.inl ⟨rfl, hk⟩))
    have h32 (hk : k % 4 = 0) : legalAccess 32 (0x10000 + k) = true := (legalAccess_pbuf_iff 32 k).2 (.inr (.inr ⟨rfl, hk⟩))
    refine ⟨fun hk => ⟨_, hostRead_pbuf_idle hs hb hk h8, s.lanesAt_8_toNat k⟩, fun hk v => ?_,
      fun ha hk => ⟨_, hostRead_pbuf_idle hs hb hk (h16 ha), s.lanesAt_16_toNat k⟩,
      fun ha hk => ⟨_, hostRead_pbuf_idle hs hb hk (h32 ha), s.lanesAt_32_toNat k⟩,
      fun ha hk v => hostWrite_pbuf_stores hs hb hk (h16 ha) v (laneBytes_16 v),
      fun ha hk v => hostWrite_pbuf_stores hs hb hk (h32 ha) v (laneBytes_32 v)⟩
    obtain ⟨m, hm, hread, hframe⟩ := hostWrite_pbuf_stores hs hb hk h8 v (laneBytes_8 v)
    refine ⟨m, hm, by simpa [State.memRead] using hread, fun a ha => hframe a ?_⟩
    simp only [List.length_singleton]
    omega
  · exact ⟨_, _, _, exec_hdrEncode s, hostRead_pbuf_idle (k := 0) hs rfl (by decide) (by decide), hostRead_reg .hdrPorts hs,
      congrArg some s.lanesAt_memWrite_encHdr.symm⟩

end Sys2Proof.Machine
end

section
/-! SUPPORT. Who changes PBUF, and what a command does to it (20_memory.md R61, R69): the bytes outside a command's row stay, and
the bytes outside the ones it reads do not matter. -/

namespace Sys2Proof.Machine

/-! ### What changes a byte of PBUF -/

/-- A command that succeeds leaves every byte outside its row of the PBUF table (20_memory.md R61). -/
theorem Succeeds.readByte_outside {i : Instr} {s u : State} (h : Succeeds i s u) {a : Nat} (ha : s.writes i a = false) :
    u.readByte a = s.readByte a := by
  cases h with
  | hdrEncode | pktEncode =>
    have ha : 8 ≤ a := by simpa [State.writes] using ha
    exact s.readByte_memWrite_outside (.inr ha)
  | pshEncode n _ =>
    have ha : ¬ (s.latch.args.offset ≤ a ∧ a < s.latch.args.offset + 12) := of_decide_eq_false ha
    exact s.readByte_memWrite_outside (by rw [psh_length]; omega)
  | hdrConstruct | hdrSetCsum | hdrDecode | csumBuf | pktConstruct | pktDecode | pktCsum => rfl

/-- A completion, with or without error, leaves every byte outside the command's row of the PBUF table. -/
theorem exec_readByte_outside {i : Instr} {s t : State} (h : exec i s = .next t) {a : Nat} (ha : s.writes i a = false) :
    t.readByte a = s.readByte a := by
  obtain ⟨e, -, rfl⟩ | ⟨u, hu, rfl⟩ := exec_cases h
  · rfl
  · exact hu.readByte_outside ha

theorem State.readByte_writeReg (s : State) (v : Word) (r : Reg) (a : Nat) :
    (s.writeReg v r).readByte a = s.readByte a := by
  cases r with
  | cmd =>
    simp only [State.writeReg, State.writeCmd]
    split_ifs <;> rfl
  | _ => rfl

/-- A host write changes only the bytes it covers, and none while BUSY = 1 (20_memory.md R69, R70). -/
theorem hostWrite_readByte {width offset : Nat} {v : Word} {s t : State} (h : hostWrite width offset v s = .next t) {a : Nat}
    (hne : t.readByte a ≠ s.readByte a) :
    s.status.busy = false ∧ offset ≤ Config.pbufWindow + a ∧ Config.pbufWindow + a < offset + width / 8 := by
  obtain ⟨hr, rfl⟩ := hostWrite_cases h
  obtain ⟨-, ho, hl⟩ := refusal?_eq_none hr
  obtain ⟨hp, he⟩ | ⟨-, r, -, he⟩ | ⟨-, -, he⟩ := hostWriteEffect_cases s width offset v <;> rw [he] at hne
  · unfold State.hostWritePbuf at hne
    split_ifs at hne with hb
    · exact absurd rfl hne
    · have hlen := laneBytes_length (legalAccess_pbuf hl hp ho).1 v
      have hin : ¬ (a < offset - Config.pbufWindow ∨ offset - Config.pbufWindow + (laneBytes width v).length ≤ a) :=
        fun hout => hne (s.readByte_memWrite_outside hout)
      refine ⟨by simpa using hb, ?_⟩
      omega
  · exact absurd (s.readByte_writeReg v r a) hne
  · exact absurd rfl hne

/-- An engine step changes a byte only when it completes a command that writes it (20_memory.md R69). -/
theorem engineStep_readByte {s t : State} (h : engineStep s = .next t) {a : Nat} (hne : t.readByte a ≠ s.readByte a) :
    s.status.busy = true ∧ s.engineLeft ≤ 1 ∧ ∃ i, decode s.latch.cmd = .ok i ∧ s.writes i a = true := by
  obtain ⟨-, he⟩ | ⟨-, -, -, he⟩ | ⟨-, hb, hleft, he⟩ := engineStep_cases s <;> rw [he] at h
  · cases h
    exact absurd rfl hne
  · cases h
    exact absurd rfl hne
  · refine ⟨hb, hleft, ?_⟩
    unfold completeLatched at h
    split at h
    · next i hi =>
      refine ⟨i, hi, ?_⟩
      by_contra hw
      exact hne (exec_readByte_outside h (by simpa using hw))
    · cases h
      exact absurd rfl hne

/-! ### A command from other PBUF contents -/

/-- The state with other contents of PBUF: other known bytes, and the unknown ones of another reset (log 1). -/
def State.withPbuf (s : State) (m : Memory) (epoch : Nat) : State := { s with pbuf := m, pbufEpoch := epoch }

/-- A completion carries other PBUF contents along when the writes of the pseudocode do. -/
theorem finish_withPbuf {s t : State} {r : Except CmdError State} (h : finish s r = .next t) (m : Memory) (epoch : Nat) :
    finish (s.withPbuf m epoch) (r.map (·.withPbuf m epoch)) = .next (t.withPbuf m epoch) := by
  obtain ⟨u, rfl, rfl⟩ | ⟨e, rfl, rfl⟩ := finish_cases h <;> rfl

theorem raiseIf_map (bad : Bool) (e : CmdError) (r : Except CmdError State) (f : State → State) :
    (raiseIf bad e r).map f = raiseIf bad e (r.map f) := by
  cases bad <;> rfl

/-- A completion that writes `bs` to PBUF leaves those bytes there whatever PBUF held, if it succeeds. -/
theorem finish_memWrite_withPbuf {s u t : State} {bad : Bool} {e : CmdError} {a : Nat} {bs : List Byte}
    (h : finish s (raiseIf bad e (.ok (u.memWrite a bs))) = .next t) (m : Memory) (epoch : Nat) :
    ∃ m', finish (s.withPbuf m epoch) (raiseIf bad e (.ok ((u.withPbuf m epoch).memWrite a bs))) =
        .next (t.withPbuf m' epoch) ∧
      ∀ k, a ≤ k ∧ k < a + bs.length → t.status.errCode = 0#4 → (t.withPbuf m' epoch).readByte k = t.readByte k := by
  cases bad with
  | true =>
    cases h
    exact ⟨m, rfl, fun _ _ hok => absurd hok e.code_ne_ok⟩
  | false =>
    cases h
    refine ⟨m.setBytes a bs, rfl, fun k hk _ => ?_⟩
    obtain ⟨j, rfl⟩ := Nat.exists_eq_add_of_le hk.1
    have hj : j < bs.length := by omega
    exact ((u.withPbuf m epoch).readByte_memWrite_inside a bs hj).trans (u.readByte_memWrite_inside a bs hj).symm

/-- From PBUF contents that read the same where a command reads, it completes in the same next state but for PBUF, and, if it
succeeds, with the same bytes where it writes (20_memory.md R61). -/
theorem exec_withPbuf {i : Instr} {s t : State} (h : exec i s = .next t) {m : Memory} {epoch : Nat}
    (hread : ∀ a, s.reads i a = true → (s.withPbuf m epoch).readByte a = s.readByte a) :
    ∃ m', exec i (s.withPbuf m epoch) = .next (t.withPbuf m' epoch) ∧
      ∀ a, s.writes i a = true → t.status.errCode = 0#4 → (t.withPbuf m' epoch).readByte a = t.readByte a := by
  have hmem {a n : Nat} (hin : ∀ k, k < n → s.reads i (a + k) = true) :
      (s.withPbuf m epoch).memRead a n = s.memRead a n := State.memRead_congr fun k hk => hread _ (hin k hk)
  cases i with
  | hdrConstruct =>
    have ht := finish_withPbuf (exec_hdrConstruct s ▸ h) m epoch
    rw [raiseIf_map] at ht
    exact ⟨m, ht, fun _ ha => nomatch ha⟩
  | hdrSetCsum value =>
    have ht := finish_withPbuf (exec_hdrSetCsum value s ▸ h) m epoch
    exact ⟨m, ht, fun _ ha => nomatch ha⟩
  | hdrDecode =>
    have hm := hmem (a := 0) (n := Config.headerBytes) fun k hk => decide_eq_true ((Nat.zero_add k).trans_lt hk)
    have ht := finish_withPbuf (exec_hdrDecode s ▸ h) m epoch
    rw [raiseIf_map, ← hm] at ht
    exact ⟨m, ht, fun _ ha => nomatch ha⟩
  | pktDecode =>
    have hm := hmem (a := 0) (n := Config.headerBytes) fun k hk => decide_eq_true ((Nat.zero_add k).trans_lt hk)
    have ht := finish_withPbuf (exec_pktDecode s ▸ h) m epoch
    rw [raiseIf_map, raiseIf_map, ← hm] at ht
    exact ⟨m, ht, fun _ ha => nomatch ha⟩
  | csumBuf =>
    have hm := hmem (a := s.latch.args.offset) (n := s.latch.args.length) fun k hk =>
      decide_eq_true ⟨Nat.le_add_right _ k, Nat.add_lt_add_left hk _⟩
    have ht := finish_withPbuf (exec_csumBuf s ▸ h) m epoch
    rw [raiseIf_map, ← hm] at ht
    exact ⟨m, ht, fun _ ha => nomatch ha⟩
  | pktConstruct =>
    have hm := hmem (a := Config.headerBytes) (n := s.latch.args.length) fun k hk =>
      decide_eq_true ⟨Nat.le_add_right _ k, Nat.add_lt_add_left hk _⟩
    have ht := finish_withPbuf (exec_pktConstruct s ▸ h) m epoch
    rw [raiseIf_map, ← hm] at ht
    exact ⟨m, ht, fun _ ha => nomatch ha⟩
  | pktCsum =>
    have hm := hmem (a := Config.headerBytes) (n := s.hdr.len.toNat - Config.headerBytes) fun k hk =>
      decide_eq_true ⟨Nat.le_add_right _ k, Nat.add_lt_of_lt_sub' hk⟩
    have ht := finish_withPbuf (exec_pktCsum s ▸ h) m epoch
    rw [raiseIf_map, ← hm] at ht
    exact ⟨m, ht, fun _ ha => nomatch ha⟩
  | hdrEncode =>
    -- HDR_ENCODE has no check: one that never fails stands in for it, and its error is any.
    obtain ⟨m', ht, hbytes⟩ := finish_memWrite_withPbuf (bad := false) (e := .badRange) (exec_hdrEncode s ▸ h) m epoch
    exact ⟨m', ht, fun a ha => hbytes a (by simpa [State.writes] using ha)⟩
  | pktEncode =>
    obtain ⟨m', ht, hbytes⟩ := finish_memWrite_withPbuf (u := s.setXlen s.hdr.len) (exec_pktEncode s ▸ h) m epoch
    exact ⟨m', ht, fun a ha => hbytes a (by simpa [State.writes] using ha)⟩
  | pshEncode n =>
    obtain ⟨m', ht, hbytes⟩ := finish_memWrite_withPbuf (exec_pshEncode n s ▸ h) m epoch
    exact ⟨m', ht, fun a ha => hbytes a (of_decide_eq_true ha)⟩

end Sys2Proof.Machine
end

section
/-! PROOFS. PBUF changes only by its writers, and commands keep to their rows of the PBUF table (20_memory.md R61, R69). -/

namespace Sys2Proof.Machine

/-- Settles O21: by cases on the event of the step; popping it off the schedule changes nothing a read of PBUF sees. -/
theorem pbufChangesOnlyByWritesAndCompletions : Obligations.PbufChangesOnlyByWritesAndCompletions := by
  intro s t a h hne
  unfold step at h
  cases he : s.nextEvent with
  | hostRead width offset =>
    rw [he] at h
    obtain ⟨-, rfl⟩ := hostRead_cases h
    exact absurd rfl hne
  | hostWrite width offset v =>
    rw [he] at h
    exact .inl ⟨width, offset, v, rfl, hostWrite_readByte (s := s.popEvent) h hne⟩
  | engine =>
    rw [he] at h
    exact .inr (.inl ⟨rfl, engineStep_readByte (s := s.popEvent) h hne⟩)
  | reset b => exact .inr (.inr ⟨b, rfl⟩)

/-- Settles O50: the frame of a completion, and its run from other PBUF contents. -/
theorem commandsUseOnlyTheirPbufRanges : Obligations.CommandsUseOnlyTheirPbufRanges := by
  intro i s t h
  exact ⟨fun a ha => exec_readByte_outside h ha, fun m epoch hread => exec_withPbuf h hread⟩

end Sys2Proof.Machine
end

section
/-! SUPPORT. Blocks and their windows (20_memory.md R63, R84): a step of one block leaves the others alone, and an access is the
access of the first block whose window holds its address. -/

namespace Sys2Proof.Machine

/-- A step of block k that is performed is that block's own step, and every other block is as before (20_memory.md R84). -/
theorem Platform.onBlock_next_cases {p q : Platform} {k : Nat} {b : Block} {f : State → Host.Outcome State Fault Refusal}
    (hb : p[k]? = some b) (h : p.onBlock k f = .next q) :
    (∃ s, f b.state = .next s ∧ q[k]? = some { b with state := s }) ∧ ∀ j, j ≠ k → q[j]? = p[j]? := by
  obtain ⟨hnone, -⟩ | ⟨b', s, hb', hs, rfl⟩ := Platform.onBlock_cases h
  · rw [hb] at hnone
    cases hnone
  · obtain rfl : b = b' := Option.some.inj (hb.symm.trans hb')
    obtain ⟨hk, -⟩ := List.getElem?_eq_some_iff.1 hb
    exact ⟨⟨s, hs, List.getElem?_set_self hk⟩, fun j hj => List.getElem?_set_ne (Ne.symm hj)⟩

/-- An access sent to the block of an address: f takes the offset in the window. `Platform.hostRead` and `Platform.hostWrite`
are such accesses. -/
def Platform.access (p : Platform) (address : Nat) (f : Nat → State → Host.Outcome State Fault Refusal) :
    Host.Outcome Platform Fault Refusal :=
  match p.route address with
  | some (k, o) => p.onBlock k (f o)
  | none => .refused .outsideWindow

theorem Platform.hostWrite_eq_access (p : Platform) (width address : Nat) (v : Word) :
    p.hostWrite width address v = p.access address fun o => Machine.hostWrite width o v := rfl

theorem Platform.hostRead_eq_access (p : Platform) (width address : Nat) :
    p.hostRead width address = p.access address fun o => Machine.hostRead width o := rfl

/-- A performed access is the access of one block whose window holds the address, and leaves every other block alone. -/
theorem Platform.access_next_cases {p q : Platform} {address : Nat} {f : Nat → State → Host.Outcome State Fault Refusal}
    (h : p.access address f = .next q) :
    ∃ (k : Nat) (b : Block) (s : State), p[k]? = some b ∧
      (b.base ≤ address ∧ address < b.base + Config.windowBytes) ∧ f (address - b.base) b.state = .next s ∧
      q[k]? = some { b with state := s } ∧ ∀ j, j ≠ k → q[j]? = p[j]? := by
  unfold Platform.access at h
  split at h
  · next k o hroute =>
    obtain ⟨b, hb, ho, -⟩ := Platform.route_eq_some.1 hroute
    obtain ⟨hin, rfl⟩ := Block.offset?_eq_some.1 ho
    obtain ⟨⟨s, hs, hq⟩, hothers⟩ := Platform.onBlock_next_cases hb h
    exact ⟨k, b, s, hb, hin, hs, hq, hothers⟩
  · cases h

/-- The first block whose window holds the address answers the access, performed or refused (log 11). -/
theorem Platform.access_eq_onBlock {p : Platform} {k address : Nat} {b : Block} (hb : p[k]? = some b)
    (hin : b.base ≤ address ∧ address < b.base + Config.windowBytes)
    (hfirst : ∀ j b', j < k → p[j]? = some b' → ¬ (b'.base ≤ address ∧ address < b'.base + Config.windowBytes))
    (f : Nat → State → Host.Outcome State Fault Refusal) :
    p.access address f = p.onBlock k (f (address - b.base)) := by
  have hroute : p.route address = some (k, address - b.base) := Platform.route_eq_some.2
    ⟨b, hb, Block.offset?_eq_some.2 ⟨hin, rfl⟩, fun j b' hj hb' => Block.offset?_eq_none.2 (hfirst j b' hj hb')⟩
  rw [Platform.access, hroute]

theorem Platform.access_outside {p : Platform} {address : Nat}
    (hout : ∀ b ∈ p, ¬ (b.base ≤ address ∧ address < b.base + Config.windowBytes))
    (f : Nat → State → Host.Outcome State Fault Refusal) : p.access address f = .refused .outsideWindow := by
  rw [Platform.access, Platform.route_eq_none fun b hb => Block.offset?_eq_none.2 (hout b hb)]

end Sys2Proof.Machine
end

section
/-! PROOFS. Platforms of several blocks (20_memory.md R84) and runs of host scripts (20_memory.md R78, 30_encoding.md R99). -/

namespace Sys2Proof.Machine

/-- Settles O57: a read and a write of the platform are both `Platform.access`, and a step of a block is `Platform.onBlock`. -/
theorem blocksShareNoState : Obligations.BlocksShareNoState := by
  refine ⟨fun b => Nat.mul_mod_left b.slot _, fun p q k b hb h => ?_, fun p q width address v => Platform.access_next_cases,
    fun p q width address => Platform.access_next_cases, fun p k width address b v hb hin hfirst => ?_,
    fun p width address v hout => ⟨Platform.access_outside hout _, Platform.access_outside hout _⟩⟩
  · obtain ⟨⟨s, hs, hq⟩, hothers⟩ := Platform.onBlock_next_cases hb h
    exact ⟨⟨s, hs, step_pbufBlock hs, hq⟩, hothers⟩
  · rw [Platform.hostWrite_eq_access, Platform.hostRead_eq_access, Platform.access_eq_onBlock hb hin hfirst,
      Platform.access_eq_onBlock hb hin hfirst]
    exact ⟨fun s => Platform.onBlock_next hb, fun r => Platform.onBlock_refused hb, fun s => Platform.onBlock_next hb,
      fun r => Platform.onBlock_refused hb⟩

/-- Settles O60, by induction on the turns: a turn is no event of the block, or the step that takes its event off the
schedule. -/
theorem scriptRunsAreMachineRuns : Obligations.ScriptRunsAreMachineRuns := by
  intro turns
  induction turns with
  | nil =>
    intro r u h
    cases h
    rfl
  | cons turn turns ih =>
    intro r u h
    obtain ⟨r', hturn, hrest⟩ := ScriptRun.run_cons_cases h
    rw [ScriptRun.events_cons hturn]
    obtain ⟨hnone, rfl⟩ | ⟨e, he, hperform⟩ := ScriptRun.turn_cases hturn
    · rw [hnone]
      exact ih r' u hrest
    · rw [he]
      exact (run_succ (step_schedule hperform _) _).trans (ih r' u hrest)

end Sys2Proof.Machine
end

section
/-! SUPPORT. The decoder, the encoder, the opcode map and the assembler in terms of one another (30_encoding.md R93 to R98): a
word decodes to a command exactly when it is the command's word. -/

namespace Sys2Proof

/-! ### Encoder and decoder -/

theorem decode_encode (i : Instr) : decode (encode i) = .ok i := by
  unfold decode withoutImmediate
  rw [rsvField_encode, if_pos rfl, opField_encode, immField_encode]
  cases i <;> rfl

/-- A word is the word of a command exactly when its three fields are the command's (30_encoding.md R90). -/
theorem encode_eq_iff {i : Instr} {w : Word} :
    encode i = w ↔ opField w = i.mnemonic.opcode ∧ rsvField w = 0#8 ∧ immField w = i.imm16 := by
  constructor
  · rintro rfl
    exact ⟨opField_encode i, rsvField_encode i, immField_encode i⟩
  · rintro ⟨hop, hrsv, himm⟩
    exact word_eq_of_fields ((opField_encode i).trans hop.symm) ((rsvField_encode i).trans hrsv.symm)
      ((immField_encode i).trans himm.symm)

theorem withoutImmediate_eq_ok {w : Word} {i j : Instr} (h : withoutImmediate w i = .ok j) :
    immField w = 0#16 ∧ i = j := by
  unfold withoutImmediate at h
  split_ifs at h with himm
  cases h
  exact ⟨himm, rfl⟩

/-- The decoder answers a command only on the fields of that command's word. -/
theorem encode_of_decode {w : Word} {i : Instr} (h : decode w = .ok i) : encode i = w := by
  unfold decode at h
  split_ifs at h with hrsv
  refine encode_eq_iff.2 ?_
  split at h
  case h_2 hop | h_5 hop =>
    cases h
    exact ⟨BitVec.eq_of_toNat_eq hop, hrsv, rfl⟩
  case h_11 => cases h
  all_goals
    next hop =>
      obtain ⟨himm, rfl⟩ := withoutImmediate_eq_ok h
      exact ⟨BitVec.eq_of_toNat_eq hop, hrsv, himm⟩

theorem decode_eq_ok_iff {w : Word} {i : Instr} : decode w = .ok i ↔ encode i = w :=
  ⟨encode_of_decode, fun h => h ▸ decode_encode i⟩

theorem encode_injective : Function.Injective encode := fun i j h => by
  simpa [decode_encode] using congrArg decode h

/-- A word is illegal exactly when it is no command's word. -/
theorem decode_eq_error_iff {w : Word} : (∃ e, decode w = .error e) ↔ ∀ i, encode i ≠ w := by
  simp only [ne_eq, ← decode_eq_ok_iff]
  cases decode w <;> simp

/-! ### The command of a mnemonic -/

@[simp] theorem Mnemonic.instr_mnemonic (imm : Half) (m : Mnemonic) : (m.instr imm).mnemonic = m := by cases m <;> rfl

theorem Mnemonic.instr_imm16 (imm : Half) (m : Mnemonic) :
    (m.instr imm).imm16 = if m.takesImmediate then imm else 0#16 := by
  cases m <;> rfl

theorem Mnemonic.takesImmediate_iff (m : Mnemonic) :
    m.takesImmediate = true ↔ m = .HDR_SET_CSUM ∨ m = .PSH_ENCODE := by
  cases m <;> decide

/-- The operation codes are 0x01 to 0x0A (30_encoding.md R93). -/
theorem Mnemonic.exists_opcode_iff (n : Nat) : (∃ m : Mnemonic, n = m.opcode.toNat) ↔ 1 ≤ n ∧ n ≤ 10 := by
  constructor
  · rintro ⟨m, rfl⟩
    cases m <;> decide
  · rintro ⟨hlo, hhi⟩
    interval_cases n
    exacts [⟨.HDR_CONSTRUCT, rfl⟩, ⟨.HDR_SET_CSUM, rfl⟩, ⟨.HDR_ENCODE, rfl⟩, ⟨.HDR_DECODE, rfl⟩, ⟨.PSH_ENCODE, rfl⟩,
      ⟨.CSUM_BUF, rfl⟩, ⟨.PKT_CONSTRUCT, rfl⟩, ⟨.PKT_ENCODE, rfl⟩, ⟨.PKT_DECODE, rfl⟩, ⟨.PKT_CSUM, rfl⟩]

/-- The operation codes of the commands whose IMM16 must be 0 (30_encoding.md R93). -/
theorem Mnemonic.opcode_mem_withoutImmediate (m : Mnemonic) :
    m.opcode.toNat ∈ [0x01, 0x03, 0x04, 0x06, 0x07, 0x08, 0x09, 0x0A] ↔ m.takesImmediate = false := by
  cases m <;> decide

theorem Instr.opcode_mem_withoutImmediate (i : Instr)
    (h : i.mnemonic.opcode.toNat ∈ [0x01, 0x03, 0x04, 0x06, 0x07, 0x08, 0x09, 0x0A]) : i.imm16 = 0#16 := by
  rw [Mnemonic.opcode_mem_withoutImmediate] at h
  cases i with
  | hdrSetCsum | pshEncode => cases h
  | _ => rfl

/-- With OP of a mnemonic, RSV 0 and an IMM16 that the mnemonic allows, a word is the word of the mnemonic's command. -/
theorem encode_instr_immField {w : Word} {m : Mnemonic} (hop : opField w = m.opcode) (hrsv : rsvField w = 0#8)
    (himm : m.takesImmediate = false → immField w = 0#16) : encode (m.instr (immField w)) = w := by
  refine encode_eq_iff.2 ⟨by rw [hop, Mnemonic.instr_mnemonic], hrsv, ?_⟩
  rw [Mnemonic.instr_imm16]
  split_ifs with ht
  · rfl
  · exact himm (Bool.not_eq_true _ ▸ ht)

/-- The words that are a command's, by their fields (30_encoding.md R93, R95). -/
theorem exists_encode_eq_iff {w : Word} : (∃ i, encode i = w) ↔
    rsvField w = 0#8 ∧ (1 ≤ (opField w).toNat ∧ (opField w).toNat ≤ 10) ∧
      ((opField w).toNat ∈ [0x01, 0x03, 0x04, 0x06, 0x07, 0x08, 0x09, 0x0A] → immField w = 0#16) := by
  rw [← Mnemonic.exists_opcode_iff]
  constructor
  · rintro ⟨i, rfl⟩
    rw [rsvField_encode, opField_encode, immField_encode]
    exact ⟨rfl, ⟨i.mnemonic, rfl⟩, i.opcode_mem_withoutImmediate⟩
  · rintro ⟨hrsv, ⟨m, hop⟩, himm⟩
    rw [hop, m.opcode_mem_withoutImmediate] at himm
    exact ⟨_, encode_instr_immField (BitVec.eq_of_toNat_eq hop) hrsv himm⟩

/-! ### The opcode map (30_encoding.md R93) -/

/-- Every row is the word of its command at immediate 0, and its mask leaves out IMM16 exactly where there is an immediate. -/
theorem opcodeMap_rows : ∀ row ∈ opcodeMap, row.value = encode (row.mnemonic.instr 0#16) ∧
    row.mask = if row.mnemonic.takesImmediate then 0x0000FFFF#32 else BitVec.allOnes 32 := by
  decide

theorem opcodeMap_mnemonic_injective :
    ∀ r ∈ opcodeMap, ∀ r' ∈ opcodeMap, r.mnemonic = r'.mnemonic → r = r' := by
  decide

/-- A word whose low half is the operation code of a mnemonic has that OP and RSV 0. -/
theorem fields_of_low_half {w : Word} {m : Mnemonic} (h : w &&& 0x0000FFFF#32 = encode (m.instr 0#16)) :
    opField w = m.opcode ∧ rsvField w = 0#8 := by
  have hlow : w.toNat % 65536 = m.opcode.toNat := by
    rw [← BitVec.toNat_inj, BitVec.toNat_and, encode_toNat, Mnemonic.instr_mnemonic, Mnemonic.instr_imm16, ite_self] at h
    simpa using (Nat.and_two_pow_sub_one_eq_mod w.toNat 16).symm.trans h
  have := m.opcode.isLt
  constructor <;> apply BitVec.eq_of_toNat_eq
  · rw [opField_toNat]
    omega
  · rw [rsvField_toNat, BitVec.toNat_ofNat]
    omega

/-- A row accepts only words of its own mnemonic's commands. -/
theorem OpcodeRow.exists_encode_of_accepts {row : OpcodeRow} (hrow : row ∈ opcodeMap) {w : Word}
    (h : row.accepts w = true) : ∃ i, encode i = w ∧ i.mnemonic = row.mnemonic := by
  obtain ⟨hvalue, hmask⟩ := opcodeMap_rows row hrow
  rw [OpcodeRow.accepts, beq_iff_eq, hvalue, hmask] at h
  split_ifs at h with ht
  · obtain ⟨hop, hrsv⟩ := fields_of_low_half h
    exact ⟨_, encode_instr_immField hop hrsv (by simp [ht]), Mnemonic.instr_mnemonic _ _⟩
  · rw [BitVec.and_allOnes] at h
    exact ⟨_, h.symm, Mnemonic.instr_mnemonic _ _⟩

/-- Every command's word is accepted by the row of its mnemonic. -/
theorem exists_row_accepts_encode (i : Instr) :
    ∃ row ∈ opcodeMap, row.mnemonic = i.mnemonic ∧ row.accepts (encode i) = true :=
  match i with
  | .hdrConstruct => Laws.OwnRow.hdrConstruct
  | .hdrSetCsum value => Laws.OwnRow.hdrSetCsum value
  | .hdrEncode => Laws.OwnRow.hdrEncode
  | .hdrDecode => Laws.OwnRow.hdrDecode
  | .pshEncode udpLength => Laws.OwnRow.pshEncode udpLength
  | .csumBuf => Laws.OwnRow.csumBuf
  | .pktConstruct => Laws.OwnRow.pktConstruct
  | .pktEncode => Laws.OwnRow.pktEncode
  | .pktDecode => Laws.OwnRow.pktDecode
  | .pktCsum => Laws.OwnRow.pktCsum

/-! ### The assembler (30_encoding.md R98) -/

theorem AsmLine.assemble_isSome (line : AsmLine) : line.assemble.isSome = line.wellFormed := by
  unfold AsmLine.assemble
  cases line.wellFormed <;> rfl

theorem AsmLine.assemble_eq_some {line : AsmLine} {w : Word} (h : line.assemble = some w) :
    line.wellFormed = true ∧ encode (line.mnemonic.instr (BitVec.ofNat 16 (line.operand.getD 0))) = w := by
  unfold AsmLine.assemble at h
  split_ifs at h with hwf
  exact ⟨hwf, Option.some.inj h⟩

/-- No bit of a well-formed line's operand is lost in the immediate. -/
theorem AsmLine.imm16_toNat {line : AsmLine} (h : line.wellFormed = true) :
    (line.mnemonic.instr (BitVec.ofNat 16 (line.operand.getD 0))).imm16.toNat = line.operand.getD 0 := by
  obtain ⟨m, _ | n⟩ := line
  · simp [Mnemonic.instr_imm16]
  · obtain ⟨ht, hn⟩ : m.takesImmediate = true ∧ n ≤ 0xFFFF := by simpa [AsmLine.wellFormed] using h
    simpa [Mnemonic.instr_imm16, ht] using Nat.lt_succ_of_le hn

end Sys2Proof
end

section
/-! SUPPORT. Acceptance and completion of the latched command (30_encoding.md R95; 60_exceptions.md R207, R208). -/

namespace Sys2Proof.Machine

theorem State.writeCmd_idle {s : State} (h : s.status.busy = false) (w : Word) : s.writeCmd w = s.accept w := by
  simp [State.writeCmd, h]

/-- The completion of an illegal word: the completion fields, and nothing else (30_encoding.md R95). -/
theorem completeLatched_illegal {s : State} {e : IllegalWord} (h : decode s.latch.cmd = .error e) :
    completeLatched s = .next (s.completedErr CmdError.illegalCommand.code) := by
  simp [completeLatched, h, State.complete, State.completedErr, Status.completed, CmdError.code]

end Sys2Proof.Machine
end

section
/-! PROOFS. Command words: the decoder, the opcode map, the illegal words and the assembler (30_encoding.md R90 to R98). -/

namespace Sys2Proof

/-- Settles O1. -/
theorem decodeReturnsEveryEncodedCommand : Obligations.DecodeReturnsEveryEncodedCommand := decode_encode

/-- Settles O2. -/
theorem commandWordIsTheEncodingOfItsCommand : Obligations.CommandWordIsTheEncodingOfItsCommand :=
  fun _ _ => encode_of_decode

/-- Settles O3: a row and the decoder both take a word as the word of a command; two rows that accept one word take it for one
command, so they have one mnemonic. -/
theorem decodeFollowsTheOpcodeMap : Obligations.DecodeFollowsTheOpcodeMap := by
  refine fun w => ⟨fun row hrow h => ?_, fun i h => ?_, fun r hr r' hr' h h' => ?_⟩
  · obtain ⟨i, rfl, hm⟩ := OpcodeRow.exists_encode_of_accepts hrow h
    exact ⟨i, decode_encode i, hm⟩
  · rw [← encode_of_decode h]
    exact exists_row_accepts_encode i
  · obtain ⟨i, rfl, hm⟩ := OpcodeRow.exists_encode_of_accepts hr h
    obtain ⟨i', hi, hm'⟩ := OpcodeRow.exists_encode_of_accepts hr' h'
    obtain rfl := encode_injective hi
    exact opcodeMap_mnemonic_injective r hr r' hr' (hm.symm.trans hm')

/-- Settles O4: a word is illegal when it is no command's word; its acceptance is a host write of CMD, its completion the one
completion with an error's code. -/
theorem exactlyTheseWordsAreIllegal : Obligations.ExactlyTheseWordsAreIllegal := by
  refine fun w => ⟨?_, fun ⟨e, he⟩ => ⟨fun s hs hb => ?_, fun s hw => ?_⟩⟩
  · have hlow : 1 ≤ (opField w).toNat ↔ ¬ (opField w).toNat = 0 := Nat.one_le_iff_ne_zero
    have hhigh : (opField w).toNat ≤ 10 ↔ ¬ 0x0B ≤ (opField w).toNat := Nat.not_lt.symm
    change _ ↔ (opField w).toNat = 0 ∨ 0x0B ≤ (opField w).toNat ∨ rsvField w ≠ 0#8 ∨ (_ ∧ immField w ≠ 0#16)
    rw [decode_eq_error_iff, ← not_exists, exists_encode_eq_iff, hlow, hhigh]
    tauto
  · exact (Machine.hostWrite_reg .cmd w hs).trans (by rw [Machine.State.writeReg, Machine.State.writeCmd_idle hb])
  · exact Machine.completeLatched_illegal (hw ▸ he)

/-- Settles O6: a line has a word exactly when it is well-formed, and its word is that of a command, which decodes back. -/
theorem assemblerAcceptsExactlyTheSyntax : Obligations.AssemblerAcceptsExactlyTheSyntax := by
  refine fun m => ⟨fun n => ?_, fun hm => ?_, fun o w h => ?_⟩
  · rw [AsmLine.assemble_isSome, ← m.takesImmediate_iff]
    simp [AsmLine.wellFormed]
  · rw [← m.takesImmediate_iff] at hm
    simpa [AsmLine.assemble_isSome, AsmLine.wellFormed] using hm
  · obtain ⟨hwf, rfl⟩ := AsmLine.assemble_eq_some h
    have himm := AsmLine.imm16_toNat hwf
    refine ⟨?_, _, decode_encode _, Mnemonic.instr_mnemonic _ m, himm⟩
    rw [encode_toNat, himm, Mnemonic.instr_mnemonic]

/-- Settles O5: each word is the encoding of the command it is to decode to. -/
theorem specWordsDecodeToTheirCommands : Obligations.SpecWordsDecodeToTheirCommands :=
  ⟨decode_encode .hdrConstruct, decode_encode .hdrEncode, decode_encode .hdrDecode, decode_encode .csumBuf,
    decode_encode .pktConstruct, decode_encode .pktEncode, decode_encode .pktDecode, decode_encode .pktCsum,
    decode_encode (.hdrSetCsum 0x1CF0#16), decode_encode (.hdrSetCsum 0#16), decode_encode (.hdrSetCsum 0xFFFF#16),
    decode_encode (.hdrSetCsum 0x1234#16), decode_encode (.pshEncode 12#16), decode_encode (.pshEncode 13#16),
    decode_encode (.pshEncode 0#16), decode_encode (.pshEncode 255#16)⟩

end Sys2Proof
end

section
/-! SUPPORT. Host scripts (30_encoding.md R99): what a line does, and the turns of a run that stands in the WAIT of its command. -/

namespace Sys2Proof.Machine

/-! ### Completion -/

/-- The command in flight completes whatever its word is: BUSY 0, DONE 1, reset as it was (60_exceptions.md R208). -/
theorem completeLatched_answers (s : State) : ∃ t, completeLatched s = .next t ∧ t.status.busy = false ∧
    t.status.done = true ∧ t.resetAsserted = s.resetAsserted := by
  cases hd : decode s.latch.cmd with
  | error e => exact ⟨_, completeLatched_illegal hd, rfl, rfl, rfl⟩
  | ok i =>
    obtain ⟨r, hr, hkeeps⟩ := exec_eq_finish i s
    have hc : completeLatched s = finish s r := by simp only [completeLatched, hd, hr]
    rw [hc]
    cases r with
    | error e => exact ⟨_, rfl, rfl, rfl, rfl⟩
    | ok u =>
      obtain ⟨-, -, -, -, -, -, -, -, -, -, -, hreset, -⟩ := hkeeps u rfl
      exact ⟨_, rfl, rfl, rfl, hreset⟩

/-- A completion does not depend on the engine's count or on the last read value (logs 5, 9). -/
theorem completeLatched_engineLeft_busData {s t : State} (h : completeLatched s = .next t) (n : Nat) (d : Option Word) :
    completeLatched { s with engineLeft := n, busData := d } = .next { t with busData := d } := by
  obtain ⟨hschedule, -⟩ := completeLatched_keeps h
  have hsame : ({ t with busData := d } : State) = { t with schedule := s.schedule, busData := d } := by rw [← hschedule]
  exact hsame ▸ completeLatched_drive h n s.schedule d

theorem perform_engine_idle {s : State} (h : s.status.busy = false) : perform .engine s = .next s := by
  simp [perform, engineStep, h]

/-! ### One line -/

theorem ScriptRun.hostTurn_write {width offset : Nat} {v : Word} {s t : State} (h : hostWrite width offset v s = .next t)
    (rest : List ScriptOp) (ok : Bool) :
    ScriptRun.hostTurn ⟨.write width offset v :: rest, ok, s⟩ = .next ⟨rest, ok, t⟩ := by
  rw [ScriptRun.hostTurn_cons (op := .write width offset v) h]
  simp [ScriptOp.again, ScriptOp.asStated]

theorem ScriptRun.hostTurn_read {width offset : Nat} {s t : State} (h : hostRead width offset s = .next t)
    (stated : Word) (rest : List ScriptOp) (ok : Bool) :
    ScriptRun.hostTurn ⟨.read width offset stated :: rest, ok, s⟩ =
      .next ⟨rest, ok && t.busData == some stated, t⟩ := by
  rw [ScriptRun.hostTurn_cons (op := .read width offset stated) h]
  rfl

/-! ### Runs in parts -/

theorem ScriptRun.run_append {xs : List Turn} {r r' : ScriptRun} (h : ScriptRun.run xs r = .next r') (ys : List Turn) :
    ScriptRun.run (xs ++ ys) r = ScriptRun.run ys r' := by
  induction xs generalizing r with
  | nil =>
    cases h
    rfl
  | cons x xs ih =>
    obtain ⟨r₁, hx, hxs⟩ := ScriptRun.run_cons_cases h
    rw [List.cons_append, ScriptRun.run_cons hx, ih hxs]

theorem ScriptRun.turn_todo_nil {r r' : ScriptRun} {x : Turn} (h : r.turn x = .next r') (hr : r.todo = []) :
    r'.todo = [] := by
  cases x with
  | host =>
    obtain ⟨todo, ok, s⟩ := r
    subst hr
    cases h
    rfl
  | engine =>
    obtain ⟨t, -, rfl⟩ := ScriptRun.onBlock_cases h
    exact hr
  | reset b =>
    cases h
    exact hr

/-- A host whose script is done stays done. -/
theorem ScriptRun.run_todo_nil {xs : List Turn} {r u : ScriptRun} (h : ScriptRun.run xs r = .next u) (hr : r.todo = []) :
    u.todo = [] := by
  induction xs generalizing r with
  | nil =>
    cases h
    exact hr
  | cons x xs ih =>
    obtain ⟨r₁, hx, hxs⟩ := ScriptRun.run_cons_cases h
    exact ih hxs (ScriptRun.turn_todo_nil hx hr)

/-! ### The WAIT of a command -/

/-- With reset released, the block `a` has a command in flight, whose completion leaves the idle block `t`. -/
structure CompletesIn (a t : State) : Prop where
  busy : a.status.busy = true
  released : a.resetAsserted = false
  completion : completeLatched a = .next t
  idle : t.status.busy = false
  done : t.status.done = true
  stillReleased : t.resetAsserted = false

theorem State.accept_completesIn {s : State} (h : s.resetAsserted = false) (w : Word) :
    ∃ t, CompletesIn (s.accept w) t := by
  obtain ⟨t, hcompletion, hidle, hdone, hreset⟩ := completeLatched_answers (s.accept w)
  exact ⟨t, rfl, h, hcompletion, hidle, hdone, hreset.trans h⟩

/-- Where a run in its last WAIT stands, with `k` engine steps of the command still to come: `a` is the block at the
acceptance, `t` the one at the completion, and the block differs from them only in the engine's count and the last read
value. -/
inductive WaitPhase (a t : State) : Nat → ScriptRun → Prop
  /-- the command is in flight -/
  | working (k : Nat) (d : Option Word) : WaitPhase a t (k + 1) ⟨[.poll], true, { a with engineLeft := k + 1, busData := d }⟩
  /-- the command is complete, and the host has not read STATUS since -/
  | completed (d : Option Word) : WaitPhase a t 0 ⟨[.poll], true, { t with busData := d }⟩
  /-- the host has left the WAIT -/
  | left (d : Option Word) : WaitPhase a t 0 ⟨[], true, { t with busData := d }⟩

theorem WaitPhase.todo_eq {a t : State} {k : Nat} {r : ScriptRun} (h : WaitPhase a t k r) :
    r.asStated = true ∧ (r.todo = [] ∨ r.todo = [.poll]) := by
  cases h with
  | left => exact ⟨rfl, .inl rfl⟩
  | working | completed => exact ⟨rfl, .inr rfl⟩

theorem WaitPhase.of_todo_nil {a t : State} {k : Nat} {r : ScriptRun} (h : WaitPhase a t k r) (hr : r.todo = []) :
    k = 0 ∧ r.block = { t with busData := r.block.busData } := by
  cases h with
  | left => exact ⟨rfl, rfl⟩
  | working | completed => cases hr

/-- An engine turn of the WAIT takes one of the command's engine steps, if one is left. -/
theorem WaitPhase.engineTurn {a t : State} (hc : CompletesIn a t) {k : Nat} {r : ScriptRun} (h : WaitPhase a t k r) :
    ∃ r', r.turn .engine = .next r' ∧ WaitPhase a t (k - 1) r' := by
  cases h with
  | working k d =>
    cases k with
    | zero =>
      have hs : perform .engine { a with engineLeft := 1, busData := d } = .next { t with busData := d } := by
        simpa [perform, engineStep, hc.busy, hc.released] using completeLatched_engineLeft_busData hc.completion 1 d
      exact ⟨_, ScriptRun.onBlock_next hs _, .completed d⟩
    | succ k =>
      have hs : perform .engine { a with engineLeft := k + 2, busData := d } =
          .next { a with engineLeft := k + 1, busData := d } := by
        simp [perform, engineStep, hc.busy, hc.released]
      exact ⟨_, ScriptRun.onBlock_next hs _, .working k d⟩
  | completed d => exact ⟨_, ScriptRun.onBlock_next (perform_engine_idle hc.idle) _, .completed d⟩
  | left d => exact ⟨_, ScriptRun.onBlock_next (perform_engine_idle hc.idle) _, .left d⟩

/-- A read of STATUS in the WAIT takes no engine step, and ends the WAIT when none is left. -/
theorem WaitPhase.hostTurn {a t : State} (hc : CompletesIn a t) {k : Nat} {r : ScriptRun} (h : WaitPhase a t k r) :
    ∃ r', r.turn .host = .next r' ∧ WaitPhase a t k r' ∧ (k = 0 → r'.todo = []) := by
  cases h with
  | working k d =>
    have hpoll := ScriptRun.hostTurn_poll (s := { a with engineLeft := k + 1, busData := d }) hc.released [] true
    rw [if_pos hc.busy] at hpoll
    exact ⟨_, hpoll, .working k _, nofun⟩
  | completed d =>
    have hpoll := ScriptRun.hostTurn_poll (s := { t with busData := d }) hc.stillReleased [] true
    rw [if_neg (by simp [hc.idle])] at hpoll
    exact ⟨_, hpoll, .left _, fun _ => rfl⟩
  | left d => exact ⟨_, rfl, .left d, fun _ => rfl⟩

/-- The turns of a WAIT without reset take the command's engine steps one by one and refuse nothing. -/
theorem WaitPhase.run {a t : State} (hc : CompletesIn a t) {turns : List Turn} (hturns : ∀ b, Turn.reset b ∉ turns)
    {k : Nat} {r : ScriptRun} (h : WaitPhase a t k r) :
    ∃ u, ScriptRun.run turns r = .next u ∧ WaitPhase a t (k - turns.count .engine) u := by
  induction turns generalizing k r with
  | nil => exact ⟨r, rfl, h⟩
  | cons x xs ih =>
    have hxs : ∀ b, Turn.reset b ∉ xs := fun b hb => hturns b (List.mem_cons_of_mem x hb)
    cases x with
    | host =>
      obtain ⟨r', hr', hphase, -⟩ := h.hostTurn hc
      rw [ScriptRun.run_cons hr', List.count_cons_of_ne (by decide)]
      exact ih hxs hphase
    | engine =>
      obtain ⟨r', hr', hphase⟩ := h.engineTurn hc
      rw [ScriptRun.run_cons hr', List.count_cons_self, Nat.add_comm, ← Nat.sub_sub]
      exact ih hxs hphase
    | reset b => exact absurd List.mem_cons_self (hturns b)

/-- A host turn after the command's last engine step ends the WAIT, and the turns after it leave it ended. -/
theorem WaitPhase.todo_nil_of_host {a t : State} (hc : CompletesIn a t) {before after : List Turn}
    (hturns : ∀ b, Turn.reset b ∉ before) {k : Nat} (hk : k ≤ before.count .engine) {r u : ScriptRun}
    (h : WaitPhase a t k r) (hrun : ScriptRun.run (before ++ .host :: after) r = .next u) : u.todo = [] := by
  obtain ⟨r₁, hbefore, hphase⟩ := h.run hc hturns
  obtain ⟨r₂, hhost, -, htodo⟩ := hphase.hostTurn hc
  rw [ScriptRun.run_append hbefore, ScriptRun.run_cons hhost] at hrun
  exact ScriptRun.run_todo_nil hrun (htodo (Nat.sub_eq_zero_of_le hk))

/-- The first host turn of a RUN on an idle block issues its word; the run then stands in its WAIT. -/
theorem ScriptRun.issueTurn {s : State} (hreset : s.resetAsserted = false) (hidle : s.status.busy = false) (w : Word)
    (t : State) : ∃ r, (ScriptRun.start [.RUN w] s).turn .host = .next r ∧
      WaitPhase (s.accept w) t (nextLatency s.cmdLatencies) r := by
  have hw : hostWrite 32 Reg.cmd.offset w s = .next (s.accept w) :=
    (hostWrite_reg .cmd w hreset).trans (congrArg _ (State.writeCmd_idle hidle w))
  refine ⟨_, ScriptRun.hostTurn_write hw [.poll] true, ?_⟩
  obtain ⟨k, hk⟩ := Nat.exists_eq_add_of_le' (one_le_nextLatency s.cmdLatencies)
  have hphase : WaitPhase (s.accept w) t (k + 1) _ := .working k s.busData
  rwa [← hk] at hphase

end Sys2Proof.Machine
end

section
/-! PROOFS. Host scripts: their lines, and the RUN that waits for its command (30_encoding.md R99). -/

namespace Sys2Proof.Machine

/-- Settles O58: each line is the write or the read it expands to; the WAIT's read is a pass of the polling loop. -/
theorem hostScriptLinesAreTheirHostSteps : Obligations.HostScriptLinesAreTheirHostSteps := by
  refine ⟨fun s t more ok => ⟨?_, ?_, ?_, ?_, ?_, ?_, ?_, ?_⟩, fun k b bs => ⟨rfl, rfl⟩, fun w => ⟨rfl, rfl⟩,
    fun s more ok hs => ⟨s.readReg .status, hostRead_reg .status hs, s.status.toWord_flags.1, ?_⟩⟩
  · exact fun r v h => ScriptRun.hostTurn_write h _ ok
  · exact fun r v h => ScriptRun.hostTurn_read h v _ ok
  · exact fun k b h => ScriptRun.hostTurn_write h _ ok
  · exact fun k h' h => ScriptRun.hostTurn_write h _ ok
  · exact fun k w h => ScriptRun.hostTurn_write h _ ok
  · exact fun k b h => ScriptRun.hostTurn_read h _ _ ok
  · exact fun k h' h => ScriptRun.hostTurn_read h _ _ ok
  · exact fun k w h => ScriptRun.hostTurn_read h w _ ok
  · rw [show (s.readReg .status).getLsbD 0 = s.status.busy from s.status.toWord_flags.1]
    exact ScriptRun.hostTurn_poll hs (scriptOps more) ok

/-- Settles O59: the issue, then the phases of the WAIT with one engine step fewer at each engine turn. -/
theorem runWaitsForItsCommand : Obligations.RunWaitsForItsCommand := by
  intro s w turns hreset hidle hturns
  obtain ⟨t, hc⟩ := State.accept_completesIn hreset w
  obtain ⟨r, hissue, hstart⟩ := ScriptRun.issueTurn hreset hidle w t
  obtain ⟨u, hrun, hend⟩ := hstart.run hc hturns
  obtain ⟨hstated, htodo⟩ := hend.todo_eq
  refine ⟨t, u, hc.completion, (ScriptRun.run_cons hissue turns).trans hrun, hstated, htodo, fun hnil => ?_, ?_⟩
  · obtain ⟨hleft, hblock⟩ := hend.of_todo_nil hnil
    exact ⟨Nat.le_of_sub_eq_zero hleft, hblock, hblock ▸ hc.idle, hblock ▸ hc.done⟩
  · rintro before after rfl hcount
    exact hstart.todo_nil_of_host hc (fun b hb => hturns b (List.mem_append_left _ hb)) hcount hrun

end Sys2Proof.Machine
end

section
/-! SUPPORT. The header codec (41_header.md R110, R111), what is left of PBUF when a range is written back, and a command as one
completion in the two forms its statements give: `completedOk` and `completedErr`. -/

namespace Sys2Proof.Machine

/-! ### The header codec -/

/-- `BE16` of two bytes gives the two bytes back (20_memory.md R66). -/
@[simp] theorem be16_half (hi lo : Byte) : be16 (half hi lo) = [hi, lo] := by
  rw [be16, half, BitVec.extractLsb'_append_eq_left, BitVec.extractLsb'_append_eq_right]

/-- `dec_hdr` of 8 bytes: each field from its two bytes, in order (41_header.md R110). -/
theorem decHdr_bytes (b0 b1 b2 b3 b4 b5 b6 b7 : Byte) : decHdr [b0, b1, b2, b3, b4, b5, b6, b7] =
    ⟨half b0 b1, half b2 b3, half b4 b5, half b6 b7⟩ := rfl

@[simp] theorem decHdr_encHdr (h : Header) : decHdr (encHdr h) = h := by
  simp only [encHdr, be16, List.cons_append, List.nil_append, decHdr_bytes, half_be16]

theorem encHdr_decHdr {bs : List Byte} (h : bs.length = 8) : encHdr (decHdr bs) = bs := by
  match bs, h with
  | [b0, b1, b2, b3, b4, b5, b6, b7], _ => simp only [decHdr_bytes, encHdr, be16_half, List.cons_append, List.nil_append]

/-- The header in `PBUF[0..8)`. -/
theorem State.decHdr_memRead (s : State) : decHdr (s.memRead 0 8) =
    ⟨half (s.readByte 0) (s.readByte 1), half (s.readByte 2) (s.readByte 3), half (s.readByte 4) (s.readByte 5),
      half (s.readByte 6) (s.readByte 7)⟩ := rfl

/-! ### PBUF -/

/-- Writing a range's own bytes back changes no byte. -/
theorem State.readByte_memWrite_memRead (s : State) (a n k : Nat) :
    (s.memWrite a (s.memRead a n)).readByte k = s.readByte k := by
  by_cases h : k < a ∨ a + n ≤ k
  · exact s.readByte_memWrite_outside (by rwa [State.memRead_length])
  · obtain ⟨j, rfl⟩ := Nat.exists_eq_add_of_le (show a ≤ k by omega)
    have hj : j < (s.memRead a n).length := by
      rw [State.memRead_length]
      omega
    rw [s.readByte_memWrite_inside a _ hj, State.memRead_getElem]

/-! ### Completion (60_exceptions.md R208) -/

theorem State.complete_codeOk (s : State) : s.complete codeOk = s.completedOk := by
  simp [State.complete, State.completedOk, Status.completed, codeOk]

theorem State.complete_code (s : State) (e : CmdError) : s.complete e.code = s.completedErr e.code := by
  have hne : (e.code != 0#4) = true := bne_iff_ne.2 e.code_ne_ok
  simp [State.complete, State.completedErr, Status.completed, hne]

theorem finish_ok_completedOk (s t : State) : finish s (.ok t) = .next t.completedOk := by
  rw [finish_ok, State.complete_codeOk]

/-- A command whose check passes completes with its writes. -/
theorem finish_raiseIf_of_not {p : Prop} [Decidable p] (h : ¬ p) (s t : State) (e : CmdError) :
    finish s (raiseIf (decide p) e (.ok t)) = .next t.completedOk := by
  rw [raiseIf_false (decide_eq_false h), finish_ok_completedOk]

/-- A command whose check fails completes with the error's code, and writes nothing. -/
theorem finish_raiseIf_of {p : Prop} [Decidable p] (h : p) (s : State) (e : CmdError) (r : Except CmdError State) :
    finish s (raiseIf (decide p) e r) = .next (s.completedErr e.code) := by
  rw [raiseIf_true (decide_eq_true h), finish_error, State.complete_code]

/-- A command run from its acceptance to its completion is its meaning over the accepted state (60_exceptions.md R207). -/
theorem State.runCommand_eq_exec (s : State) (i : Instr) : s.runCommand i = exec i (s.accept (encode i)) := by
  simp only [State.runCommand, completeLatched, State.accept_latch, decode_encode]

/-! ### HDR_ENCODE and HDR_DECODE (41_header.md R116, R119) -/

theorem exec_hdrEncode_completes (s : State) :
    exec .hdrEncode s = .next (s.memWrite 0 (encHdr s.hdr)).completedOk := by
  rw [exec_hdrEncode, finish_ok_completedOk]

theorem exec_hdrDecode_completes {s : State} (h : 8 ≤ s.latch.args.len.toNat) :
    exec .hdrDecode s = .next ((s.setHdr (decHdr (s.memRead 0 8))).setPktValid false).completedOk := by
  rw [exec_hdrDecode]
  exact finish_raiseIf_of_not (Nat.not_lt.2 h) _ _ _

/-- HDR_ENCODE from its acceptance to its completion (41_header.md R124). -/
theorem State.runCommand_hdrEncode (s : State) : s.runCommand .hdrEncode =
    .next ((s.accept (encode .hdrEncode)).memWrite 0 (encHdr s.hdr)).completedOk := by
  rw [State.runCommand_eq_exec, exec_hdrEncode_completes, State.accept_hdr]

/-- HDR_DECODE of 8 bytes or more from its acceptance to its completion (41_header.md R124). -/
theorem State.runCommand_hdrDecode {s : State} (h : 8 ≤ s.args.len.toNat) : s.runCommand .hdrDecode =
    .next (((s.accept (encode .hdrDecode)).setHdr (decHdr (s.memRead 0 8))).setPktValid false).completedOk := by
  rw [State.runCommand_eq_exec]
  exact exec_hdrDecode_completes h

end Sys2Proof.Machine
end

section
/-! PROOFS. The header commands (41_header.md R111 to R124). -/

namespace Sys2Proof.Machine

/-- Settles O28: the bytes written at 0 are read back, and those past them are not touched. -/
theorem hdrEncodeWritesTheWireHeader : Obligations.HdrEncodeWritesTheWireHeader :=
  ⟨decode_encode .hdrEncode, fun s => ⟨s.pbuf.setBytes 0 (encHdr s.hdr), exec_hdrEncode_completes s,
    s.memRead_memWrite 0 (encHdr s.hdr), fun _ ha => s.readByte_memWrite_outside (.inr ha)⟩⟩

/-- Settles O30: the layouts hold by definition, and each inverse comes from a field being its two bytes. -/
theorem headerCodecIsABijection : Obligations.HeaderCodecIsABijection :=
  ⟨fun _ => rfl, decHdr_bytes, decHdr_encHdr, fun _ => encHdr_decHdr⟩

/-- Settles O31: HDR_DECODE decodes the bytes HDR_ENCODE wrote, and HDR_ENCODE writes back the bytes HDR_DECODE read. -/
theorem headerRoundTrip : Obligations.HeaderRoundTrip := by
  refine ⟨fun s v hv => ⟨_, _, s.runCommand_hdrEncode, State.runCommand_hdrDecode hv, ?_⟩,
    fun s hlen => ⟨_, _, State.runCommand_hdrDecode hlen, State.runCommand_hdrEncode _, fun a => ?_⟩⟩
  · exact (congrArg decHdr (State.memRead_memWrite _ 0 (encHdr s.hdr))).trans (decHdr_encHdr s.hdr)
  · have hbytes : encHdr (decHdr (s.memRead 0 8)) = s.memRead 0 8 := encHdr_decHdr (s.memRead_length 0 8)
    calc (s.memWrite 0 (encHdr (decHdr (s.memRead 0 8)))).readByte a
      _ = (s.memWrite 0 (s.memRead 0 8)).readByte a := by rw [hbytes]
      _ = s.readByte a := s.readByte_memWrite_memRead 0 8 a

/-- Settles O26: the check on ARG_LEN passes or fails; when it passes, 8 + ARG_LEN is its own low 16 bits. -/
theorem hdrConstructBuildsTheHeader : Obligations.HdrConstructBuildsTheHeader := by
  refine ⟨decode_encode .hdrConstruct, fun s => ⟨fun hlen => ?_, fun hlen => ?_⟩⟩
  · refine ⟨BitVec.ofNat 16 (8 + s.latch.args.len.toNat), Nat.mod_eq_of_lt (Nat.lt_succ_of_le hlen), ?_⟩
    rw [exec_hdrConstruct]
    exact finish_raiseIf_of_not (Nat.not_lt.2 hlen) _ _ _
  · rw [exec_hdrConstruct]
    exact finish_raiseIf_of hlen _ _ _

/-- Settles O27: the word is the encoding of the command. -/
theorem hdrSetCsumWritesOnlyTheChecksum : Obligations.HdrSetCsumWritesOnlyTheChecksum :=
  fun value s => ⟨decode_encode (.hdrSetCsum value), (exec_hdrSetCsum value s).trans (finish_ok_completedOk s _)⟩

/-- Settles O29: the check on ARG_LEN passes or fails, and the 8 bytes read are the header's fields two by two. -/
theorem hdrDecodeReadsTheWireHeader : Obligations.HdrDecodeReadsTheWireHeader := by
  refine ⟨decode_encode .hdrDecode, fun s => ⟨fun hlen => ?_, fun hlen => ?_⟩⟩
  · rw [exec_hdrDecode_completes hlen, State.decHdr_memRead]
    rfl
  · rw [exec_hdrDecode]
    exact finish_raiseIf_of hlen _ _ _

end Sys2Proof.Machine
end

section
/-! SUPPORT. PSH_ENCODE and CSUM_BUF over a range inside PBUF: the one completion each of them is (42_pseudo_header.md R133,
43_checksum.md R150). -/

namespace Sys2Proof.Machine

theorem exec_pshEncode_completes {s : State} (h : s.latch.args.addr.toNat + 12 ≤ 65536) (n : Half) :
    exec (.pshEncode n) s =
      .next (s.memWrite s.latch.args.addr.toNat (psh s.latch.args.srcIp s.latch.args.dstIp n)).completedOk := by
  rw [exec_pshEncode]
  exact finish_raiseIf_of_not (Nat.not_lt.2 h) _ _ _

theorem exec_csumBuf_completes {s : State} (h : s.latch.args.addr.toNat + s.latch.args.len.toNat ≤ 65536) :
    exec .csumBuf s =
      .next (s.setCsumOut (checksum (s.memRead s.latch.args.addr.toNat s.latch.args.len.toNat))).completedOk := by
  rw [exec_csumBuf]
  exact finish_raiseIf_of_not (Nat.not_lt.2 h) _ _ _

/-- PSH_ENCODE inside PBUF from its acceptance to its completion: the latch holds the operand registers (R136). -/
theorem State.runCommand_pshEncode {s : State} (h : s.args.addr.toNat + 12 ≤ 65536) (n : Half) :
    s.runCommand (.pshEncode n) =
      .next ((s.accept (encode (.pshEncode n))).memWrite s.args.addr.toNat (psh s.args.srcIp s.args.dstIp n)).completedOk := by
  rw [State.runCommand_eq_exec]
  exact exec_pshEncode_completes h n

/-- CSUM_BUF inside PBUF from its acceptance to its completion: acceptance leaves the bytes it reads as they were (R136). -/
theorem State.runCommand_csumBuf {s : State} (h : s.args.addr.toNat + s.args.len.toNat ≤ 65536) :
    s.runCommand .csumBuf =
      .next ((s.accept (encode .csumBuf)).setCsumOut
        (checksum (s.memRead s.args.addr.toNat s.args.len.toNat))).completedOk := by
  rw [State.runCommand_eq_exec]
  exact exec_csumBuf_completes h

end Sys2Proof.Machine
end

section
/-! PROOFS. The pseudo-header command (42_pseudo_header.md R133 to R136). -/

namespace Sys2Proof.Machine

/-- Settles O32: the range check passes or fails; when it passes, the 12 bytes written at L_ADDR are read back there, and the
bytes before and after them are not touched. -/
theorem pshEncodeWritesThePseudoHeader : Obligations.PshEncodeWritesThePseudoHeader := by
  refine fun n s => ⟨decode_encode (.pshEncode n), fun hin => ?_, fun hpast => ?_⟩
  · exact ⟨s.pbuf.setBytes s.latch.args.addr.toNat (psh s.latch.args.srcIp s.latch.args.dstIp n),
      exec_pshEncode_completes hin n, s.memRead_memWrite _ (psh _ _ n), fun _ hk => s.readByte_memWrite_outside hk⟩
  · rw [exec_pshEncode]
    exact finish_raiseIf_of hpast _ _ _

/-- Settles O39: the write of ARG_LEN makes CSUM_BUF's range the 12 bytes PSH_ENCODE wrote, which it reads back. -/
theorem pshEncodeThenCsumBuf : Obligations.PshEncodeThenCsumBuf := by
  intro n s hin
  have hread : (s.memWrite s.args.addr.toNat (psh s.args.srcIp s.args.dstIp n)).memRead s.args.addr.toNat 12 =
      psh s.args.srcIp s.args.dstIp n := s.memRead_memWrite _ (psh _ _ n)
  exact ⟨_, _, State.runCommand_pshEncode hin n, State.runCommand_csumBuf hin, congrArg checksum hread, rfl⟩

end Sys2Proof.Machine
end

section
/-! SUPPORT. The checksum as a function of the word sum (43_checksum.md R141 to R148): the indexed words, the size and the
zero of a sum, the fold's range and residue, and the sum of a packet's bytes. -/

namespace Sys2Proof.Machine

/-! ### The word sum (43_checksum.md R141 to R143) -/

theorem padEven_length_even (bs : List Byte) : (padEven bs).length % 2 = 0 := by
  unfold padEven
  split_ifs with h
  · rw [List.length_append, List.length_singleton]
    omega
  · omega

theorem wordSum_singleton (b : Byte) : wordSum [b] = (half b 0x00#8).toNat := rfl

/-- The word sum is the sum of the words `W_k = {B'[2k], B'[2k+1]}` (43_checksum.md R142). -/
theorem wordSum_eq_sum_rd16 {bs : List Byte} (h : bs.length % 2 = 0) :
    wordSum bs = ((List.range (bs.length / 2)).map fun k => (rd16 bs (2 * k)).toNat).sum := by
  match bs, h with
  | [], _ => rfl
  | [b], h => simp at h
  | b :: c :: rest, h =>
    have hr : rest.length % 2 = 0 := by
      simp only [List.length_cons] at h
      omega
    have hlen : (b :: c :: rest).length / 2 = rest.length / 2 + 1 := by
      simp only [List.length_cons]
      omega
    rw [wordSum_cons_cons, wordSum_eq_sum_rd16 hr, hlen, List.range_succ_eq_map, List.map_cons, List.sum_cons, List.map_map]
    -- word 0 is {b, c}, and word k + 1 is word k of the rest
    rfl

/-- A word is at most 0xFFFF, an odd last byte with its pad byte included (43_checksum.md R143). -/
theorem wordSum_le (bs : List Byte) : wordSum bs ≤ 65535 * ((bs.length + 1) / 2) := by
  match bs with
  | [] => simp
  | [b] =>
    have hword := (half b 0x00#8).isLt
    simp only [wordSum_singleton, List.length_singleton]
    omega
  | b :: c :: rest =>
    have hword := (half b c).isLt
    have ih := wordSum_le rest
    simp only [wordSum_cons_cons, List.length_cons]
    omega

theorem half_toNat_eq_zero_iff (hi lo : Byte) : (half hi lo).toNat = 0 ↔ hi = 0#8 ∧ lo = 0#8 := by
  rw [half_toNat, ← BitVec.toNat_inj, ← BitVec.toNat_inj]
  simp

theorem wordSum_eq_zero_iff (bs : List Byte) : wordSum bs = 0 ↔ ∀ b ∈ bs, b = 0#8 := by
  match bs with
  | [] => simp
  | [b] =>
    rw [wordSum_singleton, half_toNat_eq_zero_iff]
    simp
  | b :: c :: rest =>
    rw [wordSum_cons_cons, Nat.add_eq_zero_iff, half_toNat_eq_zero_iff, wordSum_eq_zero_iff rest, List.forall_mem_cons,
      List.forall_mem_cons, and_assoc]

/-- Two words at even offsets may change places: addition does not see their order (43_checksum.md R148). -/
theorem wordSum_swap {p q : List Byte} (hp : p.length % 2 = 0) (hq : q.length % 2 = 0) (a b c d : Byte) (r : List Byte) :
    wordSum (p ++ [a, b] ++ q ++ [c, d] ++ r) = wordSum (p ++ [c, d] ++ q ++ [a, b] ++ r) := by
  simp only [List.append_assoc, wordSum_append hp, wordSum_append hq, List.cons_append, List.nil_append, wordSum_cons_cons]
  omega

/-! ### The fold (43_checksum.md R142, R143, R146) -/

theorem fold_of_le {a : Nat} (h : a ≤ 0xFFFF) : fold a = a := by
  cases a with
  | zero => rfl
  | succ n => exact if_neg (Nat.not_lt.2 h)

/-- One pass of the loop: the passes still allowed are enough for the smaller value. -/
theorem fold_of_gt {a : Nat} (h : a > 0xFFFF) : fold a = fold (foldStep a) := by
  cases a with
  | zero => simp at h
  | succ n =>
    calc fold (n + 1)
      _ = foldLoop n (foldStep (n + 1)) := if_pos h
      _ = fold (foldStep (n + 1)) := foldLoop_fuel (Nat.le_of_lt_succ (foldStep_lt h)) le_rfl

theorem fold_le (a : Nat) : fold a ≤ 0xFFFF := foldLoop_le le_rfl

theorem fold_pos {a : Nat} (h : 0 < a) : 0 < fold a := foldLoop_pos h

theorem fold_mod (a : Nat) : fold a % 65535 = a % 65535 := foldLoop_mod a a

theorem fold_eq_zero_iff {a : Nat} : fold a = 0 ↔ a = 0 :=
  ⟨fun h => Nat.eq_zero_of_not_pos fun ha => (fold_pos ha).ne' h, fun h => by rw [h]; rfl⟩

/-- The first pass leaves at most 0x1FFFE, and the second at most 0xFFFF (43_checksum.md R143). -/
theorem foldStep_foldStep_le {a : Nat} (h : a < 2 ^ 32) : foldStep (foldStep a) ≤ 0xFFFF := by
  have hfirst : foldStep a ≤ 0x1FFFE := by
    rw [foldStep_eq]
    omega
  rw [foldStep_eq (foldStep a)]
  omega

/-! ### The checksum of a word sum (43_checksum.md R144 to R148) -/

/-- The checksum depends on the word sum alone. -/
theorem checksum_congr {bs cs : List Byte} (h : wordSum bs = wordSum cs) : checksum bs = checksum cs := by
  rw [checksum, checksum, wordSum_padEven, wordSum_padEven, h]

theorem zeroRule_toNat (r : Half) : (zeroRule r).toNat = if r.toNat = 0 then 0xFFFF else r.toNat := by
  have hzero : r = 0x0000#16 ↔ r.toNat = 0 := BitVec.toNat_inj.symm
  rw [zeroRule, apply_ite BitVec.toNat, if_congr hzero rfl rfl]
  rfl

/-- Steps 3 to 5 on the word sum: the complement of the fold, and 0xFFFF in place of 0. -/
theorem checksum_toNat (bs : List Byte) : (checksum bs).toNat =
    if fold (wordSum bs) = 0xFFFF then 0xFFFF else 0xFFFF - fold (wordSum bs) := by
  have hle := fold_le (wordSum bs)
  have hnot : (~~~ BitVec.ofNat 16 (fold (wordSum bs))).toNat = 0xFFFF - fold (wordSum bs) := by
    rw [BitVec.toNat_not, BitVec.toNat_ofNat]
    omega
  rw [checksum, wordSum_padEven, zeroRule_toNat, hnot]
  split_ifs <;> omega

theorem checksum_eq_ffff_iff_fold (bs : List Byte) :
    checksum bs = 0xFFFF#16 ↔ fold (wordSum bs) = 0xFFFF ∨ wordSum bs = 0 := by
  have hle := fold_le (wordSum bs)
  rw [← BitVec.toNat_inj, checksum_toNat, ← fold_eq_zero_iff, BitVec.toNat_ofNat]
  split_ifs <;> omega

/-- The receiver's test: the words sum to 0 in ones' complement (43_checksum.md R148). -/
theorem checksum_eq_ffff_iff_mod (bs : List Byte) : checksum bs = 0xFFFF#16 ↔ wordSum bs % 65535 = 0 := by
  have hle := fold_le (wordSum bs)
  rw [checksum_eq_ffff_iff_fold, ← fold_eq_zero_iff, ← fold_mod]
  omega

/-- A checksum is the ones' complement of its word sum: added to the sum it gives 0 (43_checksum.md R148). -/
theorem wordSum_add_checksum_mod (bs : List Byte) : (wordSum bs + (checksum bs).toNat) % 65535 = 0 := by
  have hle := fold_le (wordSum bs)
  have hmod := fold_mod (wordSum bs)
  rw [checksum_toNat]
  split_ifs <;> omega

/-! ### A packet's bytes (44_packet.md R163) -/

theorem packetInput_length (src dst : Word) (h : Header) (payload : List Byte) :
    (packetInput src dst h payload).length = 20 + payload.length := by
  simp only [packetInput, List.length_append, psh_length, encHdr_length]

/-- The pseudo-header's protocol byte is not 0 (43_checksum.md R146). -/
theorem wordSum_packetInput_pos (src dst : Word) (h : Header) (payload : List Byte) :
    0 < wordSum (packetInput src dst h payload) := by
  have hmem : Config.udpProtocol ∈ packetInput src dst h payload := by simp [packetInput, psh]
  exact Nat.pos_of_ne_zero fun hzero => absurd ((wordSum_eq_zero_iff _).1 hzero _ hmem) (by decide)

theorem wordSum_encHdr (h : Header) :
    wordSum (encHdr h) = h.sport.toNat + h.dport.toNat + h.len.toNat + h.csum.toNat := by
  simp only [encHdr, be16, List.cons_append, List.nil_append, wordSum_cons_cons, half_be16, wordSum_nil, Nat.add_zero,
    Nat.add_assoc]

/-- A checksum in the header's checksum field is one more word of the sum. -/
theorem wordSum_packet (src dst : Word) (h : Header) (payload : List Byte) :
    wordSum (psh src dst h.len ++ encHdr h ++ payload) = wordSum (packetInput src dst h payload) + h.csum.toNat := by
  have hsum (g : Header) : wordSum (psh src dst h.len ++ encHdr g ++ payload) =
      wordSum (psh src dst h.len) + wordSum (encHdr g) + wordSum payload := by
    rw [wordSum_append (by simp), wordSum_append (by simp)]
  simp only [packetInput, hsum, wordSum_encHdr, BitVec.toNat_zero]
  omega

/-- A packet that holds its own checksum verifies (43_checksum.md R148). -/
theorem checksum_packet {src dst : Word} {h : Header} {payload : List Byte}
    (hc : h.csum = checksum (packetInput src dst h payload)) :
    checksum (psh src dst h.len ++ encHdr h ++ payload) = 0xFFFF#16 := by
  rw [checksum_eq_ffff_iff_mod, wordSum_packet, hc]
  exact wordSum_add_checksum_mod _

end Sys2Proof.Machine
end

section
/-! PROOFS. The checksum function and CSUM_BUF (43_checksum.md R140 to R153). -/

namespace Sys2Proof.Machine

/-- Settles O33: a pass of the fold is `a % 65536 + a / 65536`, and the padded sequence's words are read by index. -/
theorem checksumIsTheFiveSteps : Obligations.ChecksumIsTheFiveSteps := by
  refine ⟨fun a => ⟨fold_of_le, fun ha => ?_⟩, fun bs => ?_⟩
  · rw [fold_of_gt ha, foldStep_eq]
  · have hsum := wordSum_eq_sum_rd16 (padEven_length_even bs)
    simp only [rd16, half_toNat] at hsum
    rw [checksum_toNat, ← wordSum_padEven, hsum]
    rfl

/-- Settles O34: the zero rule excludes 0; the fold keeps residue and positivity; a packet has the protocol byte 17. -/
theorem checksumIsNeverZero : Obligations.ChecksumIsNeverZero := by
  refine ⟨fun bs => ?_, fun a ha => ⟨fold_pos ha, fold_le a, fold_mod a⟩, fun src dst h payload => ?_⟩
  · rw [wordSum_padEven]
    exact ⟨checksum_ne_zero bs, checksum_eq_ffff_iff_fold bs, wordSum_eq_zero_iff bs⟩
  · rw [wordSum_padEven]
    exact wordSum_packetInput_pos src dst h payload

/-- Settles O35: a sum is at most 0xFFFF for each of its words. -/
theorem checksumSumFitsThirtyTwoBits : Obligations.ChecksumSumFitsThirtyTwoBits := by
  refine ⟨fun src dst h payload hlen => ?_, fun bs hlen => ?_, fun a => foldStep_foldStep_le⟩
  · have hle := wordSum_le (packetInput src dst h payload)
    rw [packetInput_length] at hle
    rw [wordSum_padEven, packetInput_length]
    have hsum : wordSum (packetInput src dst h payload) ≤ 2147844090 := by omega
    exact ⟨by omega, hsum, Nat.mod_eq_of_lt (by omega)⟩
  · have hle := wordSum_le bs
    rw [wordSum_padEven]
    omega

/-- Settles O36: the checksum input does not see the checksum field, so the field holds the packet's own checksum. -/
theorem storedChecksumVerifies : Obligations.StoredChecksumVerifies :=
  fun src dst h payload => checksum_packet (h := { h with csum := checksum (packetInput src dst h payload) }) rfl

/-- Settles O37: the two orders have one word sum; the two sequences of R148 have the checksums 0xFEFF and 0xFFFE. -/
theorem checksumIgnoresWordOrder : Obligations.ChecksumIgnoresWordOrder :=
  ⟨fun _ _ r a b c d hp hq => checksum_congr (wordSum_swap hp hq a b c d r), by decide⟩

/-- Settles O38: the range check passes or fails. -/
theorem csumBufChecksumsTheRange : Obligations.CsumBufChecksumsTheRange := by
  refine ⟨decode_encode .csumBuf, fun s => ⟨exec_csumBuf_completes, fun hpast => ?_⟩⟩
  rw [exec_csumBuf]
  exact finish_raiseIf_of hpast _ _ _

/-- Settles O40: the range CSUM_BUF reads is the pseudo-header and the packet after it, which verify. -/
theorem csumBufVerifiesAReceivedPacket : Obligations.CsumBufVerifiesAReceivedPacket := by
  intro s src dst h payload _ hlen hin hcsum hpsh hpacket
  have hread : s.memRead s.args.addr.toNat s.args.len.toNat = psh src dst h.len ++ encHdr h ++ payload := by
    rw [hlen, State.memRead_append, hpsh, hpacket, List.append_assoc]
  refine ⟨_, State.runCommand_csumBuf (by omega), ?_, rfl⟩
  exact (congrArg checksum hread).trans (checksum_packet hcsum)

end Sys2Proof.Machine
end

section
/-! SUPPORT. The packet commands that succeed, as one completion each: over any state, and from their acceptance (44_packet.md
R161 to R185). -/

namespace Sys2Proof.Machine

/-! ### The constructed header (44_packet.md R161) -/

/-- The header PKT_CONSTRUCT builds from the operands a around the payload in PBUF: its checksum is the one of the packet with
checksum 0 (R161, R163). -/
def State.packetHeader (s : State) (a : Operands) : Header :=
  a.newHeader a.length (checksum (packetInput a.srcIp a.dstIp (a.newHeader a.length 0#16) (s.memRead 8 a.length)))

/-- The length field of a header built around n bytes holds 8 + n: the sum does not wrap. -/
theorem Operands.newHeader_len_toNat {a : Operands} {n : Nat} {csum : Half} (h : 8 + n ≤ 65535) :
    (a.newHeader n csum).len.toNat = 8 + n :=
  Nat.mod_eq_of_lt (Nat.lt_succ_of_le h)

theorem State.packetHeader_len_toNat {s : State} {a : Operands} (h : 8 + a.len.toNat ≤ 65535) :
    (s.packetHeader a).len.toNat = 8 + a.len.toNat :=
  Operands.newHeader_len_toNat h

/-- The checksum input of a constructed packet, over the payload its own length field gives, is what PKT_CONSTRUCT put into
its checksum field, whatever checksum it holds now (44_packet.md R181). -/
theorem State.checksum_packetHeader {s : State} {a : Operands} (h : 8 + a.len.toNat ≤ 65535) (c : Half) :
    checksum (packetInput a.srcIp a.dstIp { s.packetHeader a with csum := c }
      (s.memRead 8 ((s.packetHeader a).len.toNat - 8))) = (s.packetHeader a).csum := by
  rw [State.packetHeader_len_toNat h, Nat.add_sub_cancel_left]
  rfl

/-! ### Over any state -/

theorem exec_pktConstruct_completes {s : State} (h : 8 + s.latch.args.len.toNat ≤ 65535) :
    exec .pktConstruct s = .next ((s.setHdr (s.packetHeader s.latch.args)).setPktValid true).completedOk := by
  rw [exec_pktConstruct]
  exact finish_raiseIf_of_not (Nat.not_lt.2 h) _ _ _

theorem exec_pktEncode_completes {s : State} (h : s.status.pktValid = true) :
    exec .pktEncode s = .next ((s.memWrite 0 (encHdr s.hdr)).setXlen s.hdr.len).completedOk := by
  rw [exec_pktEncode, h]
  exact finish_ok_completedOk _ _

/-- With 8 bytes or more received, PKT_DECODE's outcome is up to the length field alone (44_packet.md R171). -/
theorem exec_pktDecode_of_le {s : State} (h : 8 ≤ s.latch.args.len.toNat) : exec .pktDecode s = finish s
    (raiseIf (decide ((decHdr (s.memRead 0 8)).len.toNat ≠ s.latch.args.len.toNat)) .lengthMismatch
      (.ok ((s.setHdr (decHdr (s.memRead 0 8))).setPktValid true))) := by
  rw [exec_pktDecode]
  exact congrArg (finish s) (raiseIf_false (decide_eq_false (Nat.not_lt.2 h)) _ _)

theorem exec_pktDecode_completes {s : State} (h : 8 ≤ s.latch.args.len.toNat)
    (hlen : (decHdr (s.memRead 0 8)).len.toNat = s.latch.args.len.toNat) :
    exec .pktDecode s = .next ((s.setHdr (decHdr (s.memRead 0 8))).setPktValid true).completedOk := by
  rw [exec_pktDecode_of_le h, finish_raiseIf_of_not (not_not.2 hlen)]

theorem exec_pktCsum_completes {s : State} (h : s.status.pktValid = true) :
    exec .pktCsum s = .next (s.setCsumOut (checksum (packetInput s.latch.args.srcIp s.latch.args.dstIp s.hdr
      (s.memRead 8 (s.hdr.len.toNat - 8))))).completedOk := by
  rw [exec_pktCsum, h]
  exact finish_ok_completedOk _ _

/-! ### From acceptance to completion -/

theorem State.runCommand_pktConstruct {s : State} (h : 8 + s.args.len.toNat ≤ 65535) :
    s.runCommand .pktConstruct =
      .next (((s.accept (encode .pktConstruct)).setHdr (s.packetHeader s.args)).setPktValid true).completedOk := by
  rw [State.runCommand_eq_exec]
  exact exec_pktConstruct_completes h

/-- After PKT_CONSTRUCT: the packet's header is the current one, and PBUF is as it was. -/
theorem State.exists_runCommand_pktConstruct {s : State} (h : 8 + s.args.len.toNat ≤ 65535) :
    ∃ t, s.runCommand .pktConstruct = .next t ∧ t.hdr = s.packetHeader s.args ∧ t.status.pktValid = true ∧
      ∀ a, t.readByte a = s.readByte a :=
  ⟨_, State.runCommand_pktConstruct h, rfl, rfl, fun _ => rfl⟩

theorem State.runCommand_hdrSetCsum (s : State) (c : Half) : s.runCommand (.hdrSetCsum c) =
    .next ((s.accept (encode (.hdrSetCsum c))).setHdr { s.hdr with csum := c }).completedOk := by
  rw [State.runCommand_eq_exec, exec_hdrSetCsum, finish_ok_completedOk, State.accept_hdr]

/-- After PKT_ENCODE: PBUF holds the wire header and, past it, what it held; XLEN holds the packet's length. -/
theorem State.exists_runCommand_pktEncode {s : State} (h : s.status.pktValid = true) :
    ∃ t, s.runCommand .pktEncode = .next t ∧ t.xlen = s.hdr.len ∧ t.memRead 0 8 = encHdr s.hdr ∧
      ∀ a, 8 ≤ a → t.readByte a = s.readByte a := by
  refine ⟨_, (State.runCommand_eq_exec s .pktEncode).trans (exec_pktEncode_completes h), rfl, ?_, fun a ha => ?_⟩
  · exact s.memRead_memWrite 0 (encHdr s.hdr)
  · exact s.readByte_memWrite_outside (.inr ha)

/-- After PKT_DECODE of a header that PBUF holds, with as many bytes received as its length field says: it succeeds, the
header is the current one, and PBUF is as it was. -/
theorem State.exists_runCommand_pktDecode {s : State} {h : Header} (hbytes : s.memRead 0 8 = encHdr h)
    (hcount : s.args.len.toNat = h.len.toNat) (hlen : 8 ≤ h.len.toNat) :
    ∃ t, s.runCommand .pktDecode = .next t ∧ t.status.errCode = 0#4 ∧ t.status.pktValid = true ∧ t.hdr = h ∧
      ∀ a, t.readByte a = s.readByte a := by
  have hdecoded : decHdr ((s.accept (encode .pktDecode)).memRead 0 8) = h :=
    (congrArg decHdr hbytes).trans (decHdr_encHdr h)
  refine ⟨_, (State.runCommand_eq_exec s .pktDecode).trans (exec_pktDecode_completes ?_ ?_), rfl, rfl, hdecoded,
    fun _ => rfl⟩
  · exact hcount.symm ▸ hlen
  · exact (congrArg (fun g => g.len.toNat) hdecoded).trans hcount.symm

theorem State.runCommand_pktCsum {s : State} (h : s.status.pktValid = true) : s.runCommand .pktCsum =
    .next ((s.accept (encode .pktCsum)).setCsumOut (checksum (packetInput s.args.srcIp s.args.dstIp s.hdr
      (s.memRead 8 (s.hdr.len.toNat - 8))))).completedOk := by
  rw [State.runCommand_eq_exec]
  exact exec_pktCsum_completes h

end Sys2Proof.Machine
end

section
/-! PROOFS. The packet commands (44_packet.md R161 to R185). -/

namespace Sys2Proof.Machine

/-- Settles O41: the check on ARG_LEN passes or fails; when it passes, 8 + ARG_LEN is its own low 16 bits. -/
theorem pktConstructBuildsThePacket : Obligations.PktConstructBuildsThePacket := by
  refine ⟨decode_encode .pktConstruct, fun s => ⟨fun hlen => ?_, fun hlen => ?_⟩⟩
  · exact ⟨_, State.packetHeader_len_toNat (s := s) hlen, exec_pktConstruct_completes hlen⟩
  · rw [exec_pktConstruct]
    exact finish_raiseIf_of hlen _ _ _

/-- Settles O42: the bytes written at 0 are read back, and those past them are not touched. -/
theorem pktEncodeWritesTheWirePacket : Obligations.PktEncodeWritesTheWirePacket := by
  refine ⟨decode_encode .pktEncode, fun s => ⟨fun hvalid => ?_, fun hvalid => ?_⟩⟩
  · exact ⟨s.pbuf.setBytes 0 (encHdr s.hdr), exec_pktEncode_completes hvalid, s.memRead_memWrite 0 (encHdr s.hdr),
      fun _ ha => s.readByte_memWrite_outside (.inr ha)⟩
  · rw [exec_pktEncode, hvalid]
    exact congrArg _ (s.complete_code .noPacket)

/-- Settles O43: the byte count's check first, then the length field's, whose field is the bytes 4 and 5 of PBUF. -/
theorem pktDecodeTakesTheReceivedPacket : Obligations.PktDecodeTakesTheReceivedPacket := by
  refine ⟨decode_encode .pktDecode, fun s => ⟨fun hshort => ?_, fun hlong hne => ?_, fun hlong hlen => ?_⟩⟩
  · rw [exec_pktDecode]
    exact finish_raiseIf_of hshort _ _ _
  · rw [exec_pktDecode_of_le hlong]
    exact finish_raiseIf_of hne _ _ _
  · exact exec_pktDecode_completes hlong hlen

/-- Settles O44: PKT_VALID is 1 or 0. -/
theorem pktCsumRecomputesTheChecksum : Obligations.PktCsumRecomputesTheChecksum := by
  refine ⟨decode_encode .pktCsum, fun s => ⟨exec_pktCsum_completes, fun hvalid => ?_⟩⟩
  rw [exec_pktCsum, hvalid]
  exact congrArg _ (s.complete_code .noPacket)

/-- Settles O45: the checksum input does not see the checksum field, and the payload's length is the one in H_LEN. -/
theorem pktCsumAfterPktConstruct : Obligations.PktCsumAfterPktConstruct :=
  fun s c hlen => ⟨_, _, _, State.runCommand_pktConstruct hlen, State.runCommand_hdrSetCsum _ c,
    State.runCommand_pktCsum rfl, s.checksum_packetHeader hlen c, rfl, rfl⟩

/-- Settles O46: PKT_DECODE reads the bytes PKT_ENCODE wrote, whose length field is the byte count XLEN. -/
theorem packetRoundTrip : Obligations.PacketRoundTrip := by
  intro s hlen
  obtain ⟨t, ht, hhdr, hvalid, htbytes⟩ := State.exists_runCommand_pktConstruct hlen
  obtain ⟨u, hu, hxlen, huhdr, hurest⟩ := State.exists_runCommand_pktEncode hvalid
  have hfield : t.hdr.len.toNat = 8 + s.args.len.toNat := hhdr ▸ State.packetHeader_len_toNat hlen
  have hcount : (u.readReg .xlen).toNat = t.hdr.len.toNat := by
    rw [← hxlen, State.readReg, toNat_append_eq_mul_add]
    simp
  obtain ⟨w, hw, hok, hwvalid, hwhdr, hwbytes⟩ := State.exists_runCommand_pktDecode
    (s := u.writeReg (u.readReg .xlen) .argLen) huhdr hcount (hfield ▸ Nat.le_add_right 8 _)
  have hbytes (a : Nat) : w.readByte a = u.readByte a := (hwbytes a).trans (u.readByte_writeReg _ .argLen a)
  refine ⟨t, u, w, ht, hu, hw, hok, hwvalid, hwhdr, hwhdr ▸ hfield, fun a ha => ?_, ?_⟩
  · rw [hbytes, hurest a ha, htbytes]
  · rw [State.memRead_congr fun k _ => hbytes (0 + k), huhdr]

end Sys2Proof.Machine
end

section
/-! SUPPORT. What keeps the invariant of the block (`State.Inv`): each update of the state, each host access, a command's writes,
its completion, and the reset input. -/

namespace Sys2Proof.Machine

/-! ### Updates of the state -/

theorem State.Inv.reset : State.reset.Inv := by
  constructor <;> decide

theorem State.Inv.popEvent {s : State} (hs : s.Inv) : s.popEvent.Inv := { hs with }

/-- Bytes written inside PBUF leave its list canonical (log 2). -/
theorem State.Inv.memWrite {s : State} (hs : s.Inv) {a : Nat} {bs : List Byte} (hin : a + bs.length ≤ Config.bufBytes) :
    (s.memWrite a bs).Inv :=
  { hs with pbufCanonical := Memory.wf_setBytes hs.pbufCanonical hin }

/-- The wire header lies inside PBUF (41_header.md R116, 44_packet.md R166). -/
theorem State.Inv.memWrite_encHdr {s : State} (hs : s.Inv) (h : Header) : (s.memWrite 0 (encHdr h)).Inv :=
  hs.memWrite (show 8 ≤ 65536 by decide)

/-- A refused write sets OVR, which the invariant does not speak of. -/
theorem State.Inv.overrun {s : State} (hs : s.Inv) : State.Inv { s with status := s.status.overrun } := { hs with }

/-- Acceptance latches the word it puts into CMD, clears DONE and leaves an engine step to take (60_exceptions.md R207). -/
theorem State.Inv.accept {s : State} (hs : s.Inv) (hreset : s.resetAsserted = false) (w : Word) : (s.accept w).Inv :=
  { hs with
    doneAfterBusy := fun _ => rfl
    latchedCmd := fun _ => rfl
    stepsLeft := iff_of_true rfl (one_le_nextLatency _)
    heldInReset := fun hasserted => absurd (hreset.symm.trans hasserted) Bool.false_ne_true }

/-- A completion leaves the block idle, with no engine step left (60_exceptions.md R208). -/
theorem State.Inv.complete {s : State} (hs : s.Inv) (hreset : s.resetAsserted = false) {code : BitVec 4}
    (hcode : code.toNat ≤ 7) : (s.complete code).Inv :=
  { hs with
    errCodeKnown := hcode
    doneAfterBusy := fun hbusy => absurd hbusy Bool.false_ne_true
    latchedCmd := fun hbusy => absurd hbusy Bool.false_ne_true
    stepsLeft := iff_of_false Bool.false_ne_true (by simp)
    heldInReset := fun hasserted => absurd (hreset.symm.trans hasserted) Bool.false_ne_true }

/-- Reset puts every register the invariant speaks of at its reset value (70_reset_and_hazards.md R232). -/
theorem State.Inv.resetBlock (s : State) (asserted : Bool) : (s.resetBlock asserted).Inv :=
  { State.Inv.reset with heldInReset := fun _ => ⟨rfl, rfl, rfl⟩ }

theorem State.Inv.driveReset {s : State} (hs : s.Inv) (asserted : Bool) : (s.driveReset asserted).Inv := by
  obtain ⟨-, hd⟩ | hd := s.driveReset_cases asserted <;> rw [hd]
  · exact hs
  · exact .resetBlock s asserted

/-! ### Host accesses -/

/-- A host write of a register; the host makes none while reset is asserted (70_reset_and_hazards.md R230). -/
theorem State.Inv.writeReg {s : State} (hs : s.Inv) (hreset : s.resetAsserted = false) (v : Word) (r : Reg) :
    (s.writeReg v r).Inv := by
  cases r with
  | ctrl => exact { hs with heldInReset := fun hasserted => absurd (hreset.symm.trans hasserted) Bool.false_ne_true }
  | status =>
    exact { hs with
      doneAfterBusy := fun hbusy => by simp [State.writeReg, hs.doneAfterBusy hbusy]
      heldInReset := fun hasserted => absurd (hreset.symm.trans hasserted) Bool.false_ne_true }
  | cmd =>
    simp only [State.writeReg, State.writeCmd]
    split_ifs
    · exact hs.overrun
    · exact hs.accept hreset v
  | argSrcIp | argDstIp | argPorts | argLen | argAddr => exact { hs with }
  | id | hdrPorts | hdrLencsum | csumOut | xlen => exact hs

theorem State.Inv.hostRead {s t : State} {width offset : Nat} (hs : s.Inv) (h : hostRead width offset s = .next t) :
    t.Inv := by
  obtain ⟨-, rfl⟩ := hostRead_cases h
  exact { hs with }

theorem State.Inv.hostWrite {s t : State} {width offset : Nat} {v : Word} (hs : s.Inv)
    (h : hostWrite width offset v s = .next t) : t.Inv := by
  obtain ⟨hr, rfl⟩ := hostWrite_cases h
  obtain ⟨hreset, ho, hl⟩ := refusal?_eq_none hr
  obtain ⟨hp, he⟩ | ⟨-, r, -, he⟩ | ⟨-, -, he⟩ := hostWriteEffect_cases s width offset v <;> rw [he]
  · obtain ⟨hwidth, hin⟩ := legalAccess_pbuf hl hp ho
    unfold State.hostWritePbuf
    split_ifs
    · exact hs.overrun
    · exact hs.memWrite (by rwa [laneBytes_length hwidth])
  · exact hs.writeReg hreset v r
  · exact hs

/-! ### The engine -/

/-- A command's writes: those that set PKT_VALID put a length of at least 8 into H_LEN, and those of PBUF lie inside it. -/
theorem State.Inv.succeeds {i : Instr} {s u : State} (hs : s.Inv) (h : Succeeds i s u) : u.Inv := by
  cases h with
  | hdrConstruct | hdrDecode => exact { hs with packetLength := fun hvalid => absurd hvalid Bool.false_ne_true }
  | hdrSetCsum | csumBuf | pktCsum => exact { hs with }
  | hdrEncode => exact hs.memWrite_encHdr s.hdr
  | pshEncode n fits => exact hs.memWrite fits
  | pktConstruct fits =>
    exact { hs with packetLength := fun _ => (Operands.newHeader_len_toNat fits).symm ▸ Nat.le_add_right _ _ }
  | pktEncode => exact { hs.memWrite_encHdr s.hdr with }
  | pktDecode enough whole => exact { hs with packetLength := fun _ => whole.symm ▸ enough }

/-- Everything a completion can do, an illegal word's included: report an error and write nothing, or make a command's
writes. -/
theorem completeLatched_cases {s t : State} (h : completeLatched s = .next t) :
    (∃ e : CmdError, t = s.complete e.code) ∨ ∃ i u, Succeeds i s u ∧ t = u.complete codeOk := by
  unfold completeLatched at h
  split at h
  · next i _ =>
    obtain ⟨e, -, he⟩ | ⟨u, hu, ht⟩ := exec_cases h
    · exact .inl ⟨e, he⟩
    · exact .inr ⟨i, u, hu, ht⟩
  · rw [finish_error] at h
    cases h
    exact .inl ⟨_, rfl⟩

theorem Succeeds.resetAsserted_eq {i : Instr} {s u : State} (h : Succeeds i s u) : u.resetAsserted = s.resetAsserted := by
  cases h <;> rfl

theorem State.Inv.completeLatched {s t : State} (hs : s.Inv) (hreset : s.resetAsserted = false)
    (h : completeLatched s = .next t) : t.Inv := by
  obtain ⟨e, rfl⟩ | ⟨i, u, hu, rfl⟩ := completeLatched_cases h
  · exact hs.complete hreset e.code_le
  · exact (hs.succeeds hu).complete (hu.resetAsserted_eq.trans hreset) (by decide)

/-- A step of waiting is taken only while more than one engine step is left, and a completion only outside reset. -/
theorem State.Inv.engineStep {s t : State} (hs : s.Inv) (h : engineStep s = .next t) : t.Inv := by
  obtain ⟨-, he⟩ | ⟨-, hbusy, hleft, he⟩ | ⟨hreset, -, -, he⟩ := engineStep_cases s <;> rw [he] at h
  · cases h
    exact hs
  · cases h
    exact { hs with stepsLeft := iff_of_true hbusy (Nat.le_sub_one_of_lt hleft) }
  · exact hs.completeLatched hreset h

/-! ### Every event -/

theorem State.Inv.perform {s t : State} {e : Event} (hs : s.Inv) (h : perform e s = .next t) : t.Inv := by
  cases e with
  | hostRead width offset => exact hs.hostRead h
  | hostWrite width offset v => exact hs.hostWrite h
  | engine => exact hs.engineStep h
  | reset asserted =>
    cases h
    exact hs.driveReset asserted

end Sys2Proof.Machine
end

section
/-! PROOFS. The invariant of the block holds at reset and every step keeps it (44_packet.md R186, 10_state.md R37,
60_exceptions.md R200, 70_reset_and_hazards.md R232). -/

namespace Sys2Proof.Machine

/-- Settles O54: every clause is a fact about the reset values. -/
theorem invariantHoldsAtReset : Obligations.InvariantHoldsAtReset := State.Inv.reset

/-- Settles O55: taking the event off the schedule changes nothing the invariant speaks of, and each event keeps it. -/
theorem everyStepKeepsTheInvariant : Obligations.EveryStepKeepsTheInvariant :=
  fun _ _ hs h => hs.popEvent.perform h

end Sys2Proof.Machine
end

section
/-! SUPPORT. Steps that answer and what they leave (60_exceptions.md R201 to R212): the engine's turn, the host's legal accesses, a
wait for the command in flight, and the codes of completion. -/

namespace Sys2Proof.Machine

/-! ### The completion of the latched command (60_exceptions.md R208) -/

theorem completeLatched_of_decode {s : State} {i : Instr} (h : decode s.latch.cmd = .ok i) :
    completeLatched s = exec i s := by
  simp only [completeLatched, h]

/-- An engine step with at most one left is the completion. -/
theorem engineStep_completes {s : State} (hreset : s.resetAsserted = false) (hbusy : s.status.busy = true)
    (hleft : s.engineLeft ≤ 1) : engineStep s = completeLatched s := by
  simp [engineStep, hreset, hbusy, Nat.not_lt.2 hleft]

/-- An engine step with more than one left is a step of waiting (log 5). -/
theorem engineStep_waits {s : State} (hreset : s.resetAsserted = false) (hbusy : s.status.busy = true)
    (hleft : 1 < s.engineLeft) : engineStep s = .next { s with engineLeft := s.engineLeft - 1 } := by
  simp [engineStep, hreset, hbusy, hleft]

theorem step_of_nextEvent {s : State} {e : Event} (h : s.nextEvent = e) : step s = perform e s.popEvent := by
  rw [step, h]

theorem State.withFetchWord_toNat (s : State) (w : Word) : s.withFetchWord 32 w.toNat = s.arm w := by
  rw [State.withFetchWord, Nat.mod_eq_of_lt w.isLt, BitVec.ofNat_toNat, BitVec.setWidth_eq]

/-! ### Steps that answer (60_exceptions.md R206, R214) -/

theorem engineStep_answers (s : State) : ∃ t, engineStep s = .next t := by
  obtain ⟨-, he⟩ | ⟨-, -, -, he⟩ | ⟨-, -, -, he⟩ := engineStep_cases s <;> rw [he]
  · exact ⟨_, rfl⟩
  · exact ⟨_, rfl⟩
  · obtain ⟨t, ht, -⟩ := completeLatched_answers s
    exact ⟨t, ht⟩

/-- With reset released, a legal access inside the window is not refused, whatever the block holds. -/
theorem refusal?_ordinary {s : State} {width offset : Nat} (hreset : s.resetAsserted = false)
    (h : (decide (offset < Config.windowBytes) && legalAccess width offset) = true) : s.refusal? width offset = none := by
  obtain ⟨hin, hlegal⟩ : offset < Config.windowBytes ∧ legalAccess width offset = true := by simpa using h
  rw [refusal?_inside width hreset hin, if_pos hlegal]

theorem perform_ordinary_answers {s : State} {e : Event} (hreset : s.resetAsserted = false) (he : e.ordinary = true) :
    ∃ t, perform e s = .next t := by
  cases e with
  | hostRead width offset => exact ⟨_, hostRead_performed (refusal?_ordinary hreset he)⟩
  | hostWrite width offset v => exact ⟨_, hostWrite_performed (refusal?_ordinary hreset he) v⟩
  | engine => exact engineStep_answers s
  | reset b => cases he

/-! ### Host writes -/

/-- A host write of a register that is performed is performed with reset released, and does what the register's write does. -/
theorem hostWrite_reg_cases {s t : State} {r : Reg} {v : Word} (h : hostWrite 32 r.offset v s = .next t) :
    s.resetAsserted = false ∧ t = s.writeReg v r := by
  obtain ⟨hreset, -⟩ := refusal?_eq_none (hostWrite_cases h).1
  rw [hostWrite_reg r v hreset] at h
  cases h
  exact ⟨hreset, rfl⟩

/-- While BUSY = 1 no host write touches the command in flight or PBUF (20_memory.md R70, 10_state.md R44). -/
theorem hostWrite_keeps_of_busy {width offset : Nat} {v : Word} {s t : State} (h : hostWrite width offset v s = .next t)
    (hbusy : s.status.busy = true) :
    t.status.busy = true ∧ t.latch = s.latch ∧ t.pbuf = s.pbuf ∧ t.engineLeft = s.engineLeft := by
  obtain ⟨-, rfl⟩ := hostWrite_cases h
  obtain ⟨-, he⟩ | ⟨-, r, -, he⟩ | ⟨-, -, he⟩ := hostWriteEffect_cases s width offset v <;> rw [he]
  · rw [State.hostWritePbuf, if_pos hbusy]
    exact ⟨hbusy, rfl, rfl, rfl⟩
  · cases r with
    | cmd =>
      rw [State.writeReg, State.writeCmd, if_pos hbusy]
      exact ⟨hbusy, rfl, rfl, rfl⟩
    | _ => exact ⟨hbusy, rfl, rfl, rfl⟩
  · exact ⟨hbusy, rfl, rfl, rfl⟩

/-! ### Waiting for the command in flight (60_exceptions.md R208, R209; 70_reset_and_hazards.md R252) -/

/-- What a command in flight finds in u as it was in s: itself, its operands, and all that only a completion writes. -/
structure KeepsCommand (s u : State) : Prop where
  busy : u.status.busy = s.status.busy
  released : u.resetAsserted = s.resetAsserted
  latch : u.latch = s.latch
  hdr : u.hdr = s.hdr
  csumOut : u.csumOut = s.csumOut
  xlen : u.xlen = s.xlen
  pbuf : u.pbuf = s.pbuf
  pbufEpoch : u.pbufEpoch = s.pbufEpoch
  pbufBlock : u.pbufBlock = s.pbufBlock
  errCode : u.status.errCode = s.status.errCode
  pktValid : u.status.pktValid = s.status.pktValid

theorem KeepsCommand.trans {s t u : State} (h : KeepsCommand s t) (g : KeepsCommand t u) : KeepsCommand s u where
  busy := g.busy.trans h.busy
  released := g.released.trans h.released
  latch := g.latch.trans h.latch
  hdr := g.hdr.trans h.hdr
  csumOut := g.csumOut.trans h.csumOut
  xlen := g.xlen.trans h.xlen
  pbuf := g.pbuf.trans h.pbuf
  pbufEpoch := g.pbufEpoch.trans h.pbufEpoch
  pbufBlock := g.pbufBlock.trans h.pbufBlock
  errCode := g.errCode.trans h.errCode
  pktValid := g.pktValid.trans h.pktValid

theorem KeepsCommand.hostWrite {width offset : Nat} {v : Word} {s t : State} (hbusy : s.status.busy = true)
    (h : hostWrite width offset v s = .next t) : KeepsCommand s t := by
  obtain ⟨hhdr, hcsum, hxlen, hvalid, hcode, hepoch, hreset, -, -⟩ := hostWrite_keeps h
  obtain ⟨hbusy', hlatch, hpbuf, -⟩ := hostWrite_keeps_of_busy h hbusy
  have hblock : t.pbufBlock = s.pbufBlock := (hostWrite_cases h).2 ▸ hostWriteEffect_pbufBlock s width offset v
  exact ⟨hbusy'.trans hbusy.symm, hreset, hlatch, hhdr, hcsum, hxlen, hpbuf, hepoch, hblock, hcode, hvalid⟩

theorem engineSteps_cons (e : Event) (es : List Event) :
    engineSteps (e :: es) = engineSteps [e] + engineSteps es := List.count_append (l₁ := [e])

/-- One event of a wait: a legal access takes none of the command's engine steps, the engine's turn takes one. -/
theorem perform_waits {s : State} {e : Event} (hbusy : s.status.busy = true) (hreset : s.resetAsserted = false)
    (he : e.ordinary = true) (hleft : engineSteps [e] < s.engineLeft) :
    ∃ t, perform e s = .next t ∧ KeepsCommand s t ∧ t.schedule = s.schedule ∧
      engineSteps [e] + t.engineLeft = s.engineLeft := by
  cases e with
  | hostRead width offset =>
    exact ⟨_, hostRead_performed (refusal?_ordinary hreset he), by constructor <;> rfl, rfl, Nat.zero_add _⟩
  | hostWrite width offset v =>
    have h := hostWrite_performed (refusal?_ordinary hreset he) v
    obtain ⟨-, -, -, -, -, -, -, hschedule, -⟩ := hostWrite_keeps h
    obtain ⟨-, -, -, hsame⟩ := hostWrite_keeps_of_busy h hbusy
    exact ⟨_, h, .hostWrite hbusy h, hschedule, (Nat.zero_add _).trans hsame⟩
  | engine =>
    exact ⟨_, engineStep_waits hreset hbusy hleft, by constructor <;> rfl, rfl, Nat.add_sub_cancel' hleft.le⟩
  | reset b => cases he

/-- The events of a wait, as long as they leave the command an engine step. -/
theorem run_waits {s : State} {es rest : List Event} (hbusy : s.status.busy = true) (hreset : s.resetAsserted = false)
    (hschedule : s.schedule = es ++ rest) (hes : ∀ e ∈ es, e.ordinary = true) (hleft : engineSteps es < s.engineLeft) :
    ∃ u, Host.Core.run core es.length s = .next u ∧ KeepsCommand s u ∧ u.schedule = rest ∧
      engineSteps es + u.engineLeft = s.engineLeft := by
  induction es generalizing s with
  | nil => exact ⟨s, rfl, by constructor <;> rfl, hschedule, Nat.zero_add _⟩
  | cons e es ih =>
    rw [engineSteps_cons] at hleft ⊢
    obtain ⟨he, hes⟩ := List.forall_mem_cons.1 hes
    obtain ⟨t, ht, hkeeps, hrest, (hcount : engineSteps [e] + t.engineLeft = s.engineLeft)⟩ :=
      perform_waits (s := s.popEvent) hbusy hreset he ((Nat.le_add_right _ _).trans_lt hleft)
    have hstep : step s = .next t := (step_of_nextEvent (by simp [State.nextEvent, hschedule])).trans ht
    obtain ⟨u, hu, hkeeps', hrest', hcount'⟩ := ih (hkeeps.busy.trans hbusy) (hkeeps.released.trans hreset)
      (by rw [hrest, State.popEvent_schedule, hschedule]; rfl) hes (by omega)
    exact ⟨u, (run_succ (M := core) hstep _).trans hu, .trans { hkeeps with } hkeeps', hrest', by omega⟩

/-- A run of one step more ends as the step after the run. -/
theorem run_succ_last {M : Host.Core} {n : Nat} {s u v : M.State} (h : M.run n s = .next u) (hstep : M.step u = .next v) :
    M.run (n + 1) s = .next v := by
  induction n generalizing s with
  | zero =>
    cases h
    exact run_succ hstep 0
  | succ n ih =>
    cases ht : M.step s with
    | next t =>
      rw [run_succ ht] at h ⊢
      exact ih h
    | fault r | refused r => simp [Host.Core.run, ht] at h

/-! ### Codes of completion (60_exceptions.md R201) -/

/-- The block after reset with these values latched from ARG_LEN and ARG_ADDR, PKT_VALID as given, and an 8-byte packet, whose
length field is 8, at the start of PBUF. -/
def codeProbe (len addr : Word) (valid : Bool) : State :=
  { State.reset with
    latch := ⟨0#32, ⟨0#32, 0#32, 0#32, len, addr⟩⟩
    status := { State.reset.status with pktValid := valid }
    pbuf := Memory.setBytes [] 0 (encHdr ⟨0#16, 0#16, 8#16, 0#16⟩) }

/-- Every command succeeds on the probe of 8 bytes at offset 0 with PKT_VALID = 1. -/
theorem codeProbe_succeeds (i : Instr) :
    ∃ t, exec i (codeProbe 8#32 0#32 true) = .next t ∧ t.status.errCode = 0#4 := by
  cases i <;> exact ⟨_, rfl, rfl⟩

/-- Every code of a command's row is reached: 0 as above, each error where its check fails. -/
theorem exists_completion_of_mem {i : Instr} {code : BitVec 4} (h : code ∈ commandCodes i) :
    ∃ s t, exec i s = .next t ∧ t.status.errCode = code := by
  by_cases hok : code = 0#4
  · exact ⟨_, hok ▸ codeProbe_succeeds i⟩
  cases i <;> simp only [commandCodes, List.mem_cons, hok, List.not_mem_nil, or_false, false_or] at h
  case hdrConstruct | pktConstruct => exact ⟨codeProbe 65528#32 0#32 true, _, rfl, h.symm⟩
  case hdrDecode => exact ⟨codeProbe 7#32 0#32 true, _, rfl, h.symm⟩
  case pshEncode | csumBuf => exact ⟨codeProbe 8#32 65536#32 true, _, rfl, h.symm⟩
  case pktEncode | pktCsum => exact ⟨codeProbe 8#32 0#32 false, _, rfl, h.symm⟩
  case pktDecode =>
    obtain rfl | rfl := h
    · exact ⟨codeProbe 7#32 0#32 true, _, rfl, rfl⟩
    · exact ⟨codeProbe 9#32 0#32 true, _, rfl, rfl⟩

/-- Code 0 stands in every row. -/
theorem codeOk_mem_commandCodes (i : Instr) : codeOk ∈ commandCodes i := by
  cases i <;> exact List.mem_cons_self

/-- A completion's code stands in the command's row. -/
theorem exec_errCode_mem {i : Instr} {s t : State} (h : exec i s = .next t) : t.status.errCode ∈ commandCodes i := by
  obtain ⟨e, he, rfl⟩ | ⟨u, -, rfl⟩ := exec_cases h
  · exact he
  · exact codeOk_mem_commandCodes i

end Sys2Proof.Machine
end

section
/-! PROOFS. Acceptance, the engine's steps, completion and its codes, and the interrupt output (60_exceptions.md R201 to R214). -/

namespace Sys2Proof.Machine

/-- Settles O10: the completion fields come from `finish`, and the frame from the writes of any pseudocode. -/
theorem everyCommandCompletes : Obligations.EveryCommandCompletes := by
  intro i s
  obtain ⟨r, hr, hkeeps⟩ := exec_eq_finish i s
  rw [hr]
  cases r with
  | error e => exact ⟨_, rfl, rfl, rfl, rfl, rfl, rfl, rfl, rfl, rfl, rfl, rfl, rfl, rfl, rfl, rfl, rfl⟩
  | ok u =>
    obtain ⟨-, -, hovr, hany, -, hargs, hcmd, hlatch, hie, hepoch, hblock, hreset, -, hplan, hschedule, hbus⟩ := hkeeps u rfl
    exact ⟨_, rfl, rfl, rfl, hovr, congrArg (· || codeOk != 0#4) hany, hargs, hcmd, hlatch, hie, rfl, hepoch, hblock, hreset,
      hplan, hschedule, hbus⟩

/-- Settles O7: with one engine step left, the engine's turn is the completion of the latch's command. -/
theorem stepRunsTheDecodedCommand : Obligations.StepRunsTheDecodedCommand := by
  intro s i hnext hreset hbusy hleft hdecode
  calc step s
    _ = engineStep s.popEvent := step_of_nextEvent hnext
    _ = completeLatched s.popEvent := engineStep_completes hreset hbusy hleft
    _ = exec i s.popEvent := completeLatched_of_decode hdecode

/-- Settles O8: the placed command is in flight with one engine step left and the engine's turn first. -/
theorem placedCommandRunsNext : Obligations.PlacedCommandRunsNext := by
  intro s i
  rw [State.withFetchWord_toNat]
  exact stepRunsTheDecodedCommand _ i rfl rfl rfl le_rfl (decode_encode i)

/-- Settles O11: the write of CMD while idle is the acceptance, which takes the engine steps from the plan. -/
theorem cmdWriteWhileIdleIsAccepted : Obligations.CmdWriteWhileIdleIsAccepted :=
  fun s w hreset hidle => ⟨nextLatency s.cmdLatencies, one_le_nextLatency _,
    (hostWrite_reg .cmd w hreset).trans (congrArg _ (State.writeCmd_idle hidle w))⟩

/-- Settles O9: the events before the last engine step are a wait, and that step then finds one left. -/
theorem commandCompletesAtItsLastEngineStep : Obligations.CommandCompletesAtItsLastEngineStep := by
  intro s k hbusy hreset hordinary hk hleft
  have hes : ∀ e ∈ s.schedule.take k, e.ordinary = true :=
    fun e he => List.all_eq_true.1 hordinary e (List.mem_of_mem_take he)
  obtain ⟨u, hrun, hkeeps, hrest, hcount⟩ :=
    run_waits hbusy hreset (List.take_append_drop k s.schedule).symm hes hleft
  rw [List.length_take_of_le hk] at hrun
  have hubusy := hkeeps.busy.trans hbusy
  refine ⟨u, hrun, hubusy, hkeeps.latch, hkeeps.hdr, hkeeps.csumOut, hkeeps.xlen, hkeeps.pbuf, hkeeps.pbufEpoch,
    hkeeps.pbufBlock, hkeeps.errCode, hkeeps.pktValid, fun hnext hlast => ?_⟩
  have hengine : u.nextEvent = .engine := by
    unfold State.nextEvent
    rw [hrest, List.headD_eq_head?_getD, List.head?_drop, hnext]
    rfl
  obtain ⟨t, ht, hidle, hdone, -⟩ := completeLatched_answers u.popEvent
  have hstep : step u = .next t := calc step u
    _ = engineStep u.popEvent := step_of_nextEvent hengine
    _ = completeLatched u.popEvent :=
      engineStep_completes (hkeeps.released.trans hreset) hubusy (show u.engineLeft ≤ 1 by omega)
    _ = .next t := ht
  exact ⟨t, run_succ_last (M := core) hrun hstep, ht, hidle, hdone⟩

/-- Settles O24: a write of CTRL, STATUS or CMD is performed only with reset released, and each by its register's rule. -/
theorem interruptFollowsEnableAndDone : Obligations.InterruptFollowsEnableAndDone := by
  refine fun s => ⟨by simp [State.irq], fun hreset v => hostWrite_reg .ctrl v hreset, fun v t h => ?_, fun v t hv h => ?_,
    fun v t hidle h => ?_, fun t h => ?_⟩
  · obtain ⟨-, rfl⟩ := hostWrite_reg_cases (r := .ctrl) h
    rfl
  · obtain ⟨-, rfl⟩ := hostWrite_reg_cases (r := .status) h
    simp [State.irq, State.writeReg, hv]
  · obtain ⟨-, rfl⟩ := hostWrite_reg_cases (r := .cmd) h
    simp [State.irq, State.writeReg, State.writeCmd_idle hidle]
  · cases h
    rfl

/-- Settles O25: a completion sets DONE whatever it was, and the write of STATUS clears it whatever set it. -/
theorem doneClearAndCompletionInBothOrders : Obligations.DoneClearAndCompletionInBothOrders := by
  intro s i v hreset _ hv
  constructor
  · obtain ⟨u, hu, -, hdone, -⟩ := everyCommandCompletes i (s.writeReg v .status)
    exact ⟨_, u, hostWrite_reg .status v hreset, hu, hdone⟩
  · obtain ⟨t, ht, -, -, -, -, -, -, -, -, -, -, -, hreset', -⟩ := everyCommandCompletes i s
    exact ⟨t, _, ht, hostWrite_reg .status v (hreset'.trans hreset), by simp [State.writeReg, hv], rfl, rfl⟩

/-- Settles O47: no code outside a row by the cases of a completion, each code of a row from a probe of its check. -/
theorem commandCodesAreTheTable : Obligations.CommandCodesAreTheTable := by
  refine ⟨fun i code => ⟨?_, exists_completion_of_mem⟩, fun n m => ⟨rfl, rfl, rfl, rfl, rfl, rfl, rfl, rfl, rfl, rfl⟩,
    fun s e he => ⟨_, completeLatched_illegal he, rfl⟩⟩
  rintro ⟨s, t, h, rfl⟩
  exact exec_errCode_mem h

/-- Settles O48: a completion whose code is not 0 has made none of the command's writes. -/
theorem failingCommandHasNoOtherEffect : Obligations.FailingCommandHasNoOtherEffect := by
  intro s t h hcode
  obtain ⟨e, rfl⟩ | ⟨i, u, -, rfl⟩ := completeLatched_cases h
  · rw [State.complete_code]
    rfl
  · exact absurd rfl hcode

/-- Settles O56: the engine and the reset input always answer, and a legal access is refused only in reset. -/
theorem noErrorStopsTheBlock : Obligations.NoErrorStopsTheBlock := by
  rintro s (hnext | ⟨b, hnext⟩ | ⟨hreset, hordinary⟩)
  · rw [State.stepsSafely, step_of_nextEvent hnext]
    exact engineStep_answers s.popEvent
  · rw [State.stepsSafely, step_of_nextEvent hnext]
    exact ⟨_, rfl⟩
  · exact perform_ordinary_answers (s := s.popEvent) hreset hordinary

end Sys2Proof.Machine
end

section
/-! SUPPORT. OVR (10_state.md R42, 70_reset_and_hazards.md R241): what each event does to it. -/

namespace Sys2Proof.Machine

/-- The register map is read backwards by `Reg.offset` (10_state.md R23). -/
theorem Reg.eq_offset_of_ofOffset {offset : Nat} {r : Reg} (h : Reg.ofOffset offset = some r) : offset = r.offset := by
  unfold Reg.ofOffset at h
  split at h <;> cases h <;> rfl

/-- Below the PBUF window only 32-bit accesses are legal (20_memory.md R64). -/
theorem legalAccess_width_of_lt {width offset : Nat} (h : legalAccess width offset = true)
    (ho : offset < Config.pbufWindow) : width = 32 := by
  rw [legalAccess, if_pos ho, Bool.and_eq_true, beq_iff_eq] at h
  exact h.1

/-- A write of CMD leaves OVR or, while BUSY = 1, is refused and sets it (10_state.md R44). -/
theorem State.writeCmd_ovr_cases (s : State) (w : Word) : (s.writeCmd w).status.ovr = s.status.ovr ∨
    (s.status.busy = true ∧ s.writeCmd w = { s with status := s.status.overrun }) := by
  unfold State.writeCmd
  split_ifs with hb
  · exact .inr ⟨hb, rfl⟩
  · exact .inl rfl

/-- A write of PBUF leaves OVR or, while BUSY = 1, is ignored and sets it (20_memory.md R70). -/
theorem State.hostWritePbuf_ovr_cases (s : State) (width k : Nat) (v : Word) :
    (s.hostWritePbuf width k v).status.ovr = s.status.ovr ∨
    (s.status.busy = true ∧ s.hostWritePbuf width k v = { s with status := s.status.overrun }) := by
  unfold State.hostWritePbuf
  split_ifs with hb
  · exact .inr ⟨hb, rfl⟩
  · exact .inl rfl

/-- A write of STATUS clears OVR with bit 5 and else leaves it (10_state.md R42). -/
theorem Status.clearBits_ovr_cases (st : Status) (v : Word) :
    (st.clearBits v).ovr = st.ovr ∨ (v.getLsbD 5 = true ∧ (st.clearBits v).ovr = false) := by
  cases hv : v.getLsbD 5
  · exact .inl (by rw [Status.clearBits_ovr, hv, Bool.not_false, Bool.and_true])
  · exact .inr ⟨rfl, by rw [Status.clearBits_ovr, hv, Bool.not_true, Bool.and_false]⟩

/-- A host write leaves OVR, or it breaks the host's duties and does nothing but set OVR, or it is a write of STATUS with bit 5
set (10_state.md R42, R44; 20_memory.md R70). -/
theorem hostWrite_ovr_cases {width offset : Nat} {v : Word} {s t : State} (h : hostWrite width offset v s = .next t) :
    t.status.ovr = s.status.ovr ∨
    (Event.keepsDuties s (.hostWrite width offset v) = false ∧ t = { s with status := s.status.overrun }) ∨
    (t.status.ovr = false ∧ width = 32 ∧ offset = 0x08 ∧ v.getLsbD 5 = true) := by
  obtain ⟨hr, rfl⟩ := hostWrite_cases h
  obtain ⟨-, -, hl⟩ := refusal?_eq_none hr
  obtain ⟨hp, he⟩ | ⟨ho, r, hreg, he⟩ | ⟨-, -, he⟩ := hostWriteEffect_cases s width offset v <;> rw [he]
  · obtain hkept | ⟨hb, hset⟩ := s.hostWritePbuf_ovr_cases width (offset - Config.pbufWindow) v
    · exact .inl hkept
    · exact .inr (.inl ⟨by simp [Event.keepsDuties, hb, hp], hset⟩)
  · obtain rfl := Reg.eq_offset_of_ofOffset hreg
    cases r with
    | cmd =>
      obtain hkept | ⟨hb, hset⟩ := s.writeCmd_ovr_cases v
      · exact .inl hkept
      · exact .inr (.inl ⟨by simp [Event.keepsDuties, hb], hset⟩)
    | status =>
      obtain hkept | ⟨hv, hcleared⟩ := s.status.clearBits_ovr_cases v
      · exact .inl hkept
      · exact .inr (.inr ⟨hcleared, legalAccess_width_of_lt hl ho, rfl, hv⟩)
    | _ => exact .inl rfl
  · exact .inl rfl

theorem Succeeds.ovr_eq {i : Instr} {s u : State} (h : Succeeds i s u) : u.status.ovr = s.status.ovr := by
  cases h <;> rfl

/-- No engine step touches OVR, a completion included (60_exceptions.md R208). -/
theorem engineStep_ovr {s t : State} (h : engineStep s = .next t) : t.status.ovr = s.status.ovr := by
  obtain ⟨-, he⟩ | ⟨-, -, -, he⟩ | ⟨-, -, -, he⟩ := engineStep_cases s <;> rw [he] at h
  · cases h
    rfl
  · cases h
    rfl
  · obtain ⟨e, rfl⟩ | ⟨i, u, hu, rfl⟩ := completeLatched_cases h
    · rfl
    · exact hu.ovr_eq

/-- Everything an event can do to OVR: leave it; set it and nothing else, by a write that breaks the host's duties; or clear it,
by a write of STATUS or a change of the reset input (70_reset_and_hazards.md R241). -/
theorem perform_ovr_cases {e : Event} {s t : State} (h : perform e s = .next t) :
    t.status.ovr = s.status.ovr ∨
    (e.keepsDuties s = false ∧ t = { s with status := s.status.overrun }) ∨
    (t.status.ovr = false ∧ ((∃ v, e = .hostWrite 32 0x08 v ∧ v.getLsbD 5 = true) ∨ ∃ b, e = .reset b)) := by
  cases e with
  | hostRead width offset =>
    obtain ⟨-, rfl⟩ := hostRead_cases h
    exact .inl rfl
  | hostWrite width offset v =>
    obtain hkept | hset | ⟨hcleared, rfl, rfl, hv⟩ := hostWrite_ovr_cases h
    · exact .inl hkept
    · exact .inr (.inl hset)
    · exact .inr (.inr ⟨hcleared, .inl ⟨v, rfl, hv⟩⟩)
  | engine => exact .inl (engineStep_ovr h)
  | reset b =>
    obtain rfl : s.driveReset b = t := by simpa [perform] using h
    obtain ⟨-, hd⟩ | hd := s.driveReset_cases b <;> rw [hd]
    · exact .inl rfl
    · exact .inr (.inr ⟨rfl, .inr ⟨b, rfl⟩⟩)

end Sys2Proof.Machine
end

section
/-! SUPPORT. The operand registers and a command in flight (10_state.md R26, 70_reset_and_hazards.md R245). -/

namespace Sys2Proof.Machine

/-- The state with other values in the operand registers; the latch keeps its own. -/
def State.withArgs (s : State) (a : Operands) : State := { s with args := a }

/-- A completion carries other operand registers along when the writes of the pseudocode do. -/
theorem finish_withArgs {s t : State} {r : Except CmdError State} (h : finish s r = .next t) (a : Operands) :
    finish (s.withArgs a) (r.map (·.withArgs a)) = .next (t.withArgs a) := by
  obtain ⟨u, rfl, rfl⟩ | ⟨e, rfl, rfl⟩ := finish_cases h <;> rfl

/-- A command with one check: neither the check nor the writes look at the operand registers. -/
theorem finish_raiseIf_withArgs {s u t : State} {bad : Bool} {e : CmdError}
    (h : finish s (raiseIf bad e (.ok u)) = .next t) (a : Operands) :
    finish (s.withArgs a) (raiseIf bad e (.ok (u.withArgs a))) = .next (t.withArgs a) := by
  have ht := finish_withArgs h a
  rwa [raiseIf_map] at ht

/-- With other values in the operand registers a command completes in the same next state but for them: every check and every
write of its pseudocode takes its operands from the latch. -/
theorem exec_withArgs {i : Instr} {s t : State} (h : exec i s = .next t) (a : Operands) :
    exec i (s.withArgs a) = .next (t.withArgs a) := by
  cases i with
  | hdrSetCsum value => exact finish_withArgs (exec_hdrSetCsum value s ▸ h) a
  | hdrEncode => exact finish_withArgs (exec_hdrEncode s ▸ h) a
  | hdrConstruct => exact finish_raiseIf_withArgs (exec_hdrConstruct s ▸ h) a
  | hdrDecode => exact finish_raiseIf_withArgs (exec_hdrDecode s ▸ h) a
  | pshEncode n => exact finish_raiseIf_withArgs (exec_pshEncode n s ▸ h) a
  | csumBuf => exact finish_raiseIf_withArgs (exec_csumBuf s ▸ h) a
  | pktConstruct => exact finish_raiseIf_withArgs (exec_pktConstruct s ▸ h) a
  | pktEncode => exact finish_raiseIf_withArgs (exec_pktEncode s ▸ h) a
  | pktCsum => exact finish_raiseIf_withArgs (exec_pktCsum s ▸ h) a
  | pktDecode =>
    have ht := finish_withArgs (exec_pktDecode s ▸ h) a
    rwa [raiseIf_map, raiseIf_map] at ht

end Sys2Proof.Machine
end

section
/-! SUPPORT. The reset input (70_reset_and_hazards.md R230 to R233): what the registers read after it, and what it keeps out. -/

namespace Sys2Proof.Machine

/-- At reset ID reads its constant and every other register 0 (70_reset_and_hazards.md R232). -/
theorem State.readReg_reset (r : Reg) : State.reset.readReg r = if r = .id then 0x55445031#32 else 0#32 := by
  cases r <;> rfl

/-- A reset from any state leaves the registers as at reset. -/
theorem State.readReg_resetBlock (s : State) (b : Bool) (r : Reg) : (s.resetBlock b).readReg r = State.reset.readReg r := by
  cases r <;> rfl

/-- While reset is asserted every access is refused, whatever its width and offset (70_reset_and_hazards.md R230). -/
theorem refusal?_inReset {s : State} (h : s.resetAsserted = true) (width offset : Nat) :
    s.refusal? width offset = some .accessDuringReset := by
  rw [State.refusal?, if_pos h]

/-- No command is in flight after a reset, so an engine step changes nothing (60_exceptions.md R208). -/
theorem State.engineStep_resetBlock (s : State) (b : Bool) : engineStep (s.resetBlock b) = .next (s.resetBlock b) :=
  perform_engine_idle (s := s.resetBlock b) rfl

end Sys2Proof.Machine
end

section
/-! PROOFS. Refused writes, reset, and what a running command does not read (70_reset_and_hazards.md R230 to R249). -/

namespace Sys2Proof.Machine

/-- Settles O22: by what an event can do to OVR; taking it off the schedule changes no register. -/
theorem overrunRecordsRefusedWrites : Obligations.OverrunRecordsRefusedWrites := by
  intro s t h
  obtain (hkept : t.status.ovr = s.status.ovr) | ⟨hduties, rfl⟩ | ⟨hcleared, hcause⟩ := perform_ovr_cases h
  · exact ⟨fun hclear hset => absurd (hclear.symm.trans (hkept.symm.trans hset)) Bool.false_ne_true,
      fun hset hclear => absurd (hclear.symm.trans (hkept.trans hset)) Bool.false_ne_true⟩
  · exact ⟨fun _ _ => ⟨hduties, rfl⟩, fun _ hclear => nomatch hclear⟩
  · exact ⟨fun _ hset => absurd (hcleared.symm.trans hset) Bool.false_ne_true, fun _ _ => hcause⟩

/-- Settles O23: asserting and releasing reset are two resets of the block, and each leaves it as at reset. -/
theorem resetLeavesEveryRegisterAtItsResetValue : Obligations.ResetLeavesEveryRegisterAtItsResetValue := by
  intro s
  have hrefused : ∀ width offset, (s.resetBlock true).refusal? width offset = some .accessDuringReset :=
    refusal?_inReset rfl
  exact ⟨s.resetBlock true, (s.resetBlock true).resetBlock false, rfl, rfl,
    fun width offset v => ⟨hostRead_refused (hrefused width offset), hostWrite_refused (hrefused width offset) v⟩,
    rfl, s.engineStep_resetBlock true, rfl, rfl, (s.resetBlock true).engineStep_resetBlock false, rfl, rfl,
    fun r => (State.readReg_resetBlock _ false r).trans (State.readReg_reset r), State.readReg_reset⟩

/-- Settles O49: the operand registers come along unread. -/
theorem commandsReadTheLatchOnly : Obligations.CommandsReadTheLatchOnly := fun _ _ _ a h => exec_withArgs h a

end Sys2Proof.Machine
end
